-- ==== Sys2Proof/Word.lean ====
section
/-! DEFINITION. The word types that do not depend on a configuration parameter: the 3-bit codes of the
phase and status registers, the 6-bit select word and the 8-bit group. Bit 0 is the least significant
bit of every word (00_scope.md R10). -/

namespace Sys2Proof

/-- Eight bits: one octet of an address, or one group of an encoding's bits. -/
abbrev Byte := BitVec 8

/-- A phase code or a status code (30_encoding.md R67, R68). -/
abbrev Code := BitVec 3

/-- The select word `SEL` with rst in bit 5, req_valid in bit 4, rsp_ready in bit 3 and the phase in bits 2:0
(30_encoding.md R69). -/
abbrev SelWord := BitVec 6

end Sys2Proof
end

