-- ==== Sys2Proof/Config.lean ====
section
/-! DEFINITION. The implementation parameters of 00_scope.md R6, the checks made on them when the block is built
(70_reset_and_hazards.md R172), this hardware's configuration, and the one free value of the model. -/

namespace Sys2Proof

/-- The parameters a build chooses: the radix, the number of digits, the width of a digit register and the width of
the value port (00_scope.md R6). They are configuration and never change during a run (10_state.md R29). -/
structure Params where
  radix : Nat
  ndig : Nat
  digw : Nat
  valw : Nat
  deriving DecidableEq, Repr

/-- `VALUE_MAX`, the largest legal Value, the same in every configuration: a Value is "constrained to
`[0, 2^32 - 1]`" (00_scope.md R6, R14). -/
def valueMax : Nat := 4294967295

/-- The start-up assertion of 70_reset_and_hazards.md R172, its five conditions in the order of its table; the first
is the coverage precondition of 00_scope.md R7. -/
def Params.legal (p : Params) : Bool :=
  decide (2 ^ 32 ≤ p.radix ^ 3) && decide (32 ≤ p.valw) && decide (p.radix ≤ 2 ^ p.digw) &&
    decide (p.radix ≤ 2 ^ p.digw - 1) && decide (p.ndig = 3)

/-- A configuration that has passed the start-up assertion. The assertion is carried as a proof, so that "no
configuration that fails them can be run at all" (70_reset_and_hazards.md R172). -/
structure Config extends Params where
  isLegal : toParams.legal = true

/-- Building the block: a configuration that fails the check "is refused and is not an instance of this hardware"
(00_scope.md R7). -/
def elaborate (p : Params) : Option Config :=
  if h : p.legal = true then some ⟨p, h⟩ else none

namespace Config

/-- This hardware, `MRD-R1628-N3-V32`: radix 1628, three digits, 11-bit digits, a 32-bit value port
(00_scope.md R2, R6). -/
abbrev mrd : Config where
  radix := 1628
  ndig := 3
  digw := 11
  valw := 32
  isLegal := by decide

/-- `POISON`, the digit code of an error response: all ones in `DIGW` bits, 2047 here (00_scope.md R6,
30_encoding.md R66). -/
def poison (cfg : Config) : BitVec cfg.digw := BitVec.allOnes cfg.digw

/-- `RADIX2 = RADIX^2` (00_scope.md R6). -/
def radix2 (cfg : Config) : Nat := cfg.radix ^ 2

/-- `RADIX3 = RADIX^3` (00_scope.md R6). -/
def radix3 (cfg : Config) : Nat := cfg.radix ^ 3

/-- `A_MAX`, the largest value digit `a` can take (00_scope.md R6). -/
def aMax (cfg : Config) : Nat := valueMax / cfg.radix2

/-- `T1_MAX`, the largest working value after the first divide (00_scope.md R6). -/
def t1Max (cfg : Config) : Nat := valueMax / cfg.radix

/-- FREE VALUE (DESIGN CHOICE, notes/assumptions/3.md). What the host presents at a step for which the schedule in
State says nothing: the 35-bit input word `rst, req_valid, rsp_ready, req_value` of 30_encoding.md R74, drawn by the
number of the step. "Inputs are the host's free choice" (20_memory.md R42), so nothing constrains it. -/
opaque freeInputWord : Nat → BitVec (3 + Config.mrd.valw)

end Config

/-- A Value as the 32-bit port of this hardware carries it (00_scope.md R14, 30_encoding.md R61). -/
abbrev Value := BitVec Config.mrd.valw

end Sys2Proof
end

