-- ==== Sys2Proof/Syntax.lean ====
section
/-! DEFINITION. The operations of spec/opcode_table.json, one constructor a row: the user-level operation, its
pseudo-instruction, the eight micro-operations of the sequencer and the three reserved phases (30_encoding.md R69). -/

namespace Sys2Proof

/-- One row of the operation map of 30_encoding.md R69 (and R73). The micro-operations carry no operand: what they
read, they read from the registers and from the input signals of their step (41_sequencer.md R100). -/
inductive Instr where
  /-- DECOMP value: the request word is the Value itself (40_decompose.md R80, 30_encoding.md R61). -/
  | decomp (value : Value)
  /-- DECOMP.IP o0.o1.o2.o3: the parts are numbers as written; only 0 to 255 are legal (30_encoding.md R73). -/
  | decompIp (o0 o1 o2 o3 : Nat)
  /-- RESET (70_reset_and_hazards.md R165). -/
  | reset
  /-- WAIT (41_sequencer.md R106). -/
  | wait
  /-- ACCEPT (41_sequencer.md R101). -/
  | accept
  /-- STEP_C (41_sequencer.md R102). -/
  | stepC
  /-- STEP_B (41_sequencer.md R103). -/
  | stepB
  /-- STEP_A (41_sequencer.md R104). -/
  | stepA
  /-- HOLD (41_sequencer.md R107). -/
  | hold
  /-- DELIVER (41_sequencer.md R105). -/
  | deliver
  /-- Reserved phase code 5 with rst = 0 (41_sequencer.md R113). -/
  | reservedPh5
  /-- Reserved phase code 6 with rst = 0 (41_sequencer.md R113). -/
  | reservedPh6
  /-- Reserved phase code 7 with rst = 0 (41_sequencer.md R113). -/
  | reservedPh7
  deriving DecidableEq, Repr

end Sys2Proof
end

