-- ==== Sys2Proof/WellFormed.lean ====
section
/-! DEFINITION. Which instructions are statements of the notation. The one check is that of 30_encoding.md R73: each
part of a DECOMP.IP literal is in 0 to 255. That a literal has four parts, and that a request word has `VALW` bits,
the types say. -/

namespace Sys2Proof

/-- One part of an address literal: "each `o` a decimal number in 0 to 255" (30_encoding.md R73). -/
def octetOk (o : Nat) : Bool := decide (o ≤ 255)

/-- "A literal with other than four parts or with a part outside 0 to 255 is not a statement of the notation"
(30_encoding.md R73). Every other instruction is well-formed whatever its operand: "Every one of the `2^VALW` bit
patterns is a request" (R61). -/
def Instr.wf : Instr → Bool
  | .decomp _ => true
  | .decompIp o0 o1 o2 o3 => octetOk o0 && octetOk o1 && octetOk o2 && octetOk o3
  | .reset => true
  | .wait => true
  | .accept => true
  | .stepC => true
  | .stepB => true
  | .stepA => true
  | .hold => true
  | .deliver => true
  | .reservedPh5 => true
  | .reservedPh6 => true
  | .reservedPh7 => true

end Sys2Proof
end

