-- ==== Sys2Proof/Decode.lean ====
section
/-! DEFINITION. The decoder of the two encodings that name an operation, the request word REQ (30_encoding.md R61) and
the select word SEL (30_encoding.md R69), then the encoder, written from the table of masks and matches. -/

namespace Sys2Proof

/-- Why a string of bytes is no word of the operation map. Safe: the decoder stops. -/
inductive DecodeError where
  /-- One byte, and one of its bits 7:6 is set: the select word has six bits (30_encoding.md R69). -/
  | selectWordTooWide
  /-- Neither the one byte of a select word nor the four of a request word (30_encoding.md R60, R71). -/
  | noSuchLength
  deriving DecidableEq, Repr

/-- The micro-operation that a select word selects: reset first, then the phase, then one input
(30_encoding.md R69, 60_exceptions.md R147). Total: the rows cover all 64 words. -/
def decodeSel (w : SelWord) : Instr :=
  if w.getLsbD 5 then .reset
  else
    match (w.extractLsb' 0 3).toNat with
    | 0 => if w.getLsbD 4 then .accept else .wait
    | 1 => .stepC
    | 2 => .stepB
    | 3 => .stepA
    | 4 => if w.getLsbD 3 then .deliver else .hold
    | 5 => .reservedPh5
    | 6 => .reservedPh6
    | _ => .reservedPh7

/-- The operation of a request word: "every request word selects it" (30_encoding.md R69). -/
def decodeReq (w : Value) : Instr := .decomp w

/-- The decoder on any bytes, the first byte holding bits 7:0 (notes/assumptions/6.md, DESIGN CHOICE: the block moves
no bytes, 20_memory.md R44; the order is that of the opcode table's bit numbers). -/
def decodeBytes : List Byte → Except DecodeError Instr
  | [b] => if b.toNat < 64 then .ok (decodeSel (b.setWidth 6)) else .error .selectWordTooWide
  | [b0, b1, b2, b3] => .ok (decodeReq (b3 ++ b2 ++ b1 ++ b0))
  | _ => .error .noSuchLength

/-- The low `n` bytes of a number, least significant first. -/
def bytesOf : Nat → Nat → List Byte
  | 0, _ => []
  | n + 1, w => BitVec.ofNat 8 w :: bytesOf n (w / 256)

/-- The decoder on a word numbered as spec/opcode_table.json numbers it: rows of the select word have one byte (its
bits 7:6 zero), rows of the request word four. -/
def decodeTableWord (nbits w : Nat) : Option Instr :=
  if 2 ^ nbits ≤ w then none
  else
    match decodeBytes (bytesOf ((nbits + 7) / 8) w) with
    | .ok i => some i
    | .error _ => none

/-- The Value of an address literal, `(o0 << 24) | (o1 << 16) | (o2 << 8) | o3` (30_encoding.md R73, 42_reference_functions.md
R122). -/
def ipToValue (o0 o1 o2 o3 : Nat) : Value :=
  BitVec.ofNat Config.mrd.valw ((o0 <<< 24) ||| (o1 <<< 16) ||| (o2 <<< 8) ||| o3)

/-- One row of the operation map: which bits of the select word it looks at, and what they must be. -/
structure SelRow where
  mask : SelWord
  want : SelWord
  instr : Instr
  deriving DecidableEq, Repr

/-- Whether a select word falls under a row. -/
def SelRow.covers (row : SelRow) (w : SelWord) : Bool := w &&& row.mask == row.want

/-- The sequencer level of the operation map, row by row as 30_encoding.md R69 prints it. -/
def selTable : List SelRow :=
  [⟨0x20, 0x20, .reset⟩, ⟨0x37, 0x00, .wait⟩, ⟨0x37, 0x10, .accept⟩, ⟨0x27, 0x01, .stepC⟩] ++
  [⟨0x27, 0x02, .stepB⟩, ⟨0x27, 0x03, .stepA⟩, ⟨0x2F, 0x04, .hold⟩, ⟨0x2F, 0x0C, .deliver⟩] ++
  [⟨0x27, 0x05, .reservedPh5⟩, ⟨0x27, 0x06, .reservedPh6⟩, ⟨0x27, 0x07, .reservedPh7⟩]

/-- The words of an instruction: its table row's match with every bit the row does not look at zero, or the request
word. A DECOMP.IP literal has the words of the DECOMP it expands to (30_encoding.md R73). -/
def encode : Instr → List Byte
  | .decomp value => bytesOf 4 value.toNat
  | .decompIp o0 o1 o2 o3 => bytesOf 4 (ipToValue o0 o1 o2 o3).toNat
  | .reset => [0x20]
  | .wait => [0x00]
  | .accept => [0x10]
  | .stepC => [0x01]
  | .stepB => [0x02]
  | .stepA => [0x03]
  | .hold => [0x04]
  | .deliver => [0x0C]
  | .reservedPh5 => [0x05]
  | .reservedPh6 => [0x06]
  | .reservedPh7 => [0x07]

/-- What a literal stands for: DECOMP.IP "expands to" a DECOMP and "the block sees only the 32-bit Value"
(30_encoding.md R73). Every other instruction stands for itself. -/
def expand : Instr → Instr
  | .decompIp o0 o1 o2 o3 => .decomp (ipToValue o0 o1 o2 o3)
  | .decomp value => .decomp value
  | .reset => .reset
  | .wait => .wait
  | .accept => .accept
  | .stepC => .stepC
  | .stepB => .stepB
  | .stepA => .stepA
  | .hold => .hold
  | .deliver => .deliver
  | .reservedPh5 => .reservedPh5
  | .reservedPh6 => .reservedPh6
  | .reservedPh7 => .reservedPh7

end Sys2Proof
end

