-- ==== Sys2Proof/Machine/State.lean ====
section
/-! DEFINITION. The state: the seven registers of 10_state.md R20, and beside them the host's side of the ports (what it
will present, and the number of the step, from which an unscheduled input is drawn). The fault and refusal reasons, and
the state right after reset. -/

namespace Sys2Proof.Machine

/-- The phases of the sequencer (30_encoding.md R67). Their codes are `Phase.code` of Machine/Flags.lean. -/
inductive Phase where
  | idle
  | stepC
  | stepB
  | stepA
  | done
  deriving DecidableEq, Repr

/-- The outcomes that have a status code (30_encoding.md R68). This block produces the first two only. -/
inductive Status where
  | ok
  | outOfRange
  | invalidAddress
  | unknownWord
  | invalidVocabulary
  deriving DecidableEq, Repr

/-- The input signals of one step (20_memory.md R41); `clk` is the step itself (00_scope.md R13). -/
structure Input (cfg : Config) where
  rst : Bool
  reqValid : Bool
  rspReady : Bool
  reqValue : BitVec cfg.valw
  deriving DecidableEq, Repr

/-- The complete state of the block, `(V, T, D[0..2], PH, ST)`: "There is no other state" (10_state.md R20). -/
structure Regs (cfg : Config) where
  /-- Operand register, `VALW` bits (10_state.md R22). -/
  V : BitVec cfg.valw
  /-- Working register, the running quotient, `VALW` bits (10_state.md R23). -/
  T : BitVec cfg.valw
  /-- `D[2]`, digit `a`, weight `RADIX^2`, `DIGW` bits (10_state.md R21). -/
  DA : BitVec cfg.digw
  /-- `D[1]`, digit `b`, weight `RADIX`, `DIGW` bits (10_state.md R21). -/
  DB : BitVec cfg.digw
  /-- `D[0]`, digit `c`, weight 1, `DIGW` bits (10_state.md R21). -/
  DC : BitVec cfg.digw
  /-- Phase register, the place of a program counter, 3 bits; all 8 codes can stand in it before the first reset
  (10_state.md R24, R31). -/
  PH : Code
  /-- Status register, 3 bits (10_state.md R25). -/
  ST : Code
  deriving DecidableEq, Repr

/-- What the host will present, one entry at a time. MODEL's own (notes/assumptions/2.md, DESIGN CHOICE): the input
signals are "chosen by the host afresh at every step" (10_state.md R29), and a step that is a function of State reads
that choice from State. -/
inductive Stimulus where
  /-- These input signals, for one step (one row of a trace, 30_encoding.md R74). -/
  | signals (i : Input Config.mrd)
  /-- A request word run at the user level: one DECOMP operation (40_decompose.md R80). It stays until it is accepted. -/
  | request (value : Value)
  /-- The script statement `DECOMP v`, one step at a time: presented "at every step up to and including the accept"
  (30_encoding.md R72). -/
  | present (value : Value)
  /-- The script statement `TAKE`: rsp_ready "at every step up to and including the deliver" (30_encoding.md R72). -/
  | take
  deriving DecidableEq, Repr

/-- The block and the host's side of its ports. -/
structure State where
  /-- The block's registers. -/
  regs : Regs Config.mrd
  /-- MODEL's own: what the host will present, the next entry first; a step past its end is a free draw. -/
  sched : List Stimulus
  /-- MODEL's own: the number of the step, the argument of the free draw. -/
  tick : Nat
  deriving DecidableEq, Repr

/-- The one way the machine stops by itself. -/
inductive Fault where
  /-- Raised by RESERVED_PH5, RESERVED_PH6 and RESERVED_PH7, and by DECOMP in such a phase: PH holds a reserved code and
  rst is 0; "a model must not give it a next state and should treat it as a fault" (41_sequencer.md R113). Safe: the
  hardware goes on in a way the spec does not define, and the model stops. -/
  | reservedPhase (code : Code)
  deriving DecidableEq, Repr

/-- Why an instruction is given no meaning. -/
inductive Refusal where
  /-- Raised by exec for a row that has no meaning yet. Safe: nothing can be proved of such a row. -/
  | notModelled (mnemonic : String)
  /-- Raised by DECOMP.IP when a part of the literal is outside 0 to 255: "not a statement of the notation"
  (30_encoding.md R73). Safe: no such statement can reach the block. -/
  | malformedLiteral
  deriving DecidableEq, Repr

/-- The state right after reset (10_state.md R31): phase IDLE, status OK. The spec gives the data registers no value
there and forbids zero ("never as zero"); the model names all ones (notes/assumptions/1.md, DESIGN CHOICE, unsafe), and
no statement rests on it. Nothing is scheduled and no step has been taken. -/
def State.reset : State where
  regs :=
    { V := 0xFFFFFFFF
      T := 0xFFFFFFFF
      DA := 0x7FF
      DB := 0x7FF
      DC := 0x7FF
      PH := 0
      ST := 0 }
  sched := []
  tick := 0

end Sys2Proof.Machine
end

