-- ==== Sys2Proof/Machine/Flags.lean ====
section
/-! DEFINITION. The codes of the phase and status registers and the one flag computation of the block: the range check
that ACCEPT records in ST. There is no other flag: "no carry, no overflow flag, no zero flag" (10_state.md R25). -/

namespace Sys2Proof.Machine

/-- The phase codes of 30_encoding.md R67. -/
def Phase.code : Phase → Code
  | .idle => 0
  | .stepC => 1
  | .stepB => 2
  | .stepA => 3
  | .done => 4

/-- The phase that a code names; codes 5, 6 and 7 are reserved (30_encoding.md R67). -/
def phaseOf (code : Code) : Option Phase :=
  match code.toNat with
  | 0 => some .idle
  | 1 => some .stepC
  | 2 => some .stepB
  | 3 => some .stepA
  | 4 => some .done
  | _ => none

/-- The status codes of 30_encoding.md R68. -/
def Status.code : Status → Code
  | .ok => 0
  | .outOfRange => 1
  | .invalidAddress => 2
  | .unknownWord => 3
  | .invalidVocabulary => 4

/-- The outcome that a status code names; codes 5, 6 and 7 are reserved (30_encoding.md R68). -/
def statusOf (code : Code) : Option Status :=
  match code.toNat with
  | 0 => some .ok
  | 1 => some .outOfRange
  | 2 => some .invalidAddress
  | 3 => some .unknownWord
  | 4 => some .invalidVocabulary
  | _ => none

/-- The range check, "a single unsigned comparison of the whole operand with `VALUE_MAX`" (60_exceptions.md R142). -/
def outOfRange {cfg : Config} (v : BitVec cfg.valw) : Bool := decide (valueMax < v.toNat)

/-- What ACCEPT writes to ST (10_state.md R25): "`OK` when the operand is at most `VALUE_MAX` and `OUT_OF_RANGE`
otherwise". -/
def rangeStatus {cfg : Config} (v : BitVec cfg.valw) : Status := if outOfRange v then .outOfRange else .ok

end Sys2Proof.Machine
end

