-- ==== Sys2Proof/Machine/Operands.lean ====
section
/-! DEFINITION. Operand forms: the select word of a step, the input word of a trace, the quotient, remainder and slice
that the micro-operations compute, the closed forms of the digits, and the packed response word. Division is that of
00_scope.md R11, exact on natural numbers; a result is narrowed once, at the register it is written to. -/

namespace Sys2Proof.Machine

variable {cfg : Config}

/-- `SEL = (rst, req_valid, rsp_ready, PH[2:0])` (30_encoding.md R69). -/
def selectWord (i : Input cfg) (ph : Code) : SelWord :=
  BitVec.ofBool i.rst ++ BitVec.ofBool i.reqValid ++ BitVec.ofBool i.rspReady ++ ph

/-- The input word of a trace, `(rst, req_valid, rsp_ready, req_value)`, 35 bits here (30_encoding.md R74). -/
def packInput (i : Input cfg) : BitVec (3 + cfg.valw) :=
  BitVec.ofBool i.rst ++ BitVec.ofBool i.reqValid ++ BitVec.ofBool i.rspReady ++ i.reqValue

/-- The input signals that an input word of a trace stands for (30_encoding.md R74). -/
def unpackInput (w : BitVec (3 + cfg.valw)) : Input cfg where
  rst := w.getLsbD (cfg.valw + 2)
  reqValid := w.getLsbD (cfg.valw + 1)
  rspReady := w.getLsbD cfg.valw
  reqValue := w.setWidth cfg.valw

/-- Input signals of a host that presents nothing (the script statement `IDLE`, 30_encoding.md R72). -/
def idleInput : Input cfg := ⟨false, false, false, 0⟩

/-- Input signals of the script statement `RESET` (30_encoding.md R72). -/
def resetInput : Input cfg := ⟨true, false, false, 0⟩

/-- Input signals of the script statement `DECOMP v` (30_encoding.md R72). -/
def requestInput (v : BitVec cfg.valw) : Input cfg := ⟨false, true, false, v⟩

/-- Input signals of the script statement `TAKE` (30_encoding.md R72). -/
def takeInput : Input cfg := ⟨false, false, true, 0⟩

/-- `(t mod RADIX)[DIGW-1:0]`, the digit that STEP_C and STEP_B find (41_sequencer.md R102, R103). -/
def digitOf (t : BitVec cfg.valw) : BitVec cfg.digw := BitVec.ofNat cfg.digw (t.toNat % cfg.radix)

/-- `t div RADIX`, the running quotient (41_sequencer.md R102, R103). -/
def quotientOf (t : BitVec cfg.valw) : BitVec cfg.valw := BitVec.ofNat cfg.valw (t.toNat / cfg.radix)

/-- `t[DIGW-1:0]`, the slice that STEP_A moves (41_sequencer.md R104). -/
def lowDigit (t : BitVec cfg.valw) : BitVec cfg.digw := t.setWidth cfg.digw

/-- The closed form of digit `a`, `value div RADIX^2` (40_decompose.md R80). -/
def closedA (radix v : Nat) : Nat := v / radix ^ 2

/-- The closed form of digit `b`, `(value div RADIX) mod RADIX` (40_decompose.md R80). -/
def closedB (radix v : Nat) : Nat := v / radix % radix

/-- The closed form of digit `c`, `value mod RADIX` (40_decompose.md R80). -/
def closedC (radix v : Nat) : Nat := v % radix

/-- The sequential form: remainder and quotient by `RADIX`, least significant digit first, the last digit a plain
move; the triple is `(a, b, c)` (40_decompose.md R83). -/
def sequentialDigits (radix v : Nat) : Nat × Nat × Nat :=
  let c := v % radix
  let t1 := v / radix
  let b := t1 % radix
  let t2 := t1 / radix
  (t2, b, c)

/-- A response as the host takes it: the five payload signals (20_memory.md R41, 30_encoding.md R62). -/
structure Response (cfg : Config) where
  status : Code
  value : BitVec cfg.valw
  a : BitVec cfg.digw
  b : BitVec cfg.digw
  c : BitVec cfg.digw
  deriving DecidableEq, Repr

/-- The digit word `DW = (a, b, c)` (30_encoding.md R62). -/
def digitWord (r : Response cfg) : BitVec (cfg.digw + cfg.digw + cfg.digw) := r.a ++ r.b ++ r.c

/-- The response word `RSP = (status, value, a, b, c)`, 68 bits here (30_encoding.md R62). -/
def packResponse (r : Response cfg) : BitVec (3 + cfg.valw + (cfg.digw + cfg.digw + cfg.digw)) :=
  r.status ++ r.value ++ digitWord r

/-- The response of one DECOMP to an operand (40_decompose.md R80): the digits by the closed forms, or the error
response, poisoned, with the offending value whole (60_exceptions.md R144). -/
def respond (v : BitVec cfg.valw) : Response cfg :=
  if outOfRange v then
    { status := Status.outOfRange.code, value := v, a := cfg.poison, b := cfg.poison, c := cfg.poison }
  else
    { status := Status.ok.code
      value := v
      a := BitVec.ofNat cfg.digw (closedA cfg.radix v.toNat)
      b := BitVec.ofNat cfg.digw (closedB cfg.radix v.toNat)
      c := BitVec.ofNat cfg.digw (closedC cfg.radix v.toNat) }

end Sys2Proof.Machine
end

