-- ==== Sys2Proof/Machine/Ops.lean ====
section
/-! DEFINITION. The named operations over the state: reading the digit file and the outputs, reading the inputs of the
current step, selecting the instruction of the step, raising the block's one exception and returning from it, and moving
the host's schedule on. The block has no memory (20_memory.md R40), so there is no memory operation. -/

namespace Sys2Proof.Machine

variable {cfg : Config}

/-- The digit register file `D[0..2]`, with `D[0] = DC`, `D[1] = DB`, `D[2] = DA` (10_state.md R21). -/
def Regs.digit (r : Regs cfg) (i : Fin 3) : BitVec cfg.digw :=
  match i with
  | 0 => r.DC
  | 1 => r.DB
  | 2 => r.DA

/-- `out.req_ready`: 1 exactly when the phase is IDLE (20_memory.md R43). -/
def Regs.reqReady (r : Regs cfg) : Bool := r.PH == Phase.idle.code

/-- `out.rsp_valid`: 1 exactly when the phase is DONE (20_memory.md R43). -/
def Regs.rspValid (r : Regs cfg) : Bool := r.PH == Phase.done.code

/-- The payload outputs, functions of the state alone: `ST`, `V`, `DA`, `DB`, `DC` (20_memory.md R43). They mean
something only while `rsp_valid` is 1. -/
def Regs.payload (r : Regs cfg) : Response cfg where
  status := r.ST
  value := r.V
  a := r.DA
  b := r.DB
  c := r.DC

/-- All a host may rely on at a time: `req_ready`, and the response while `rsp_valid` is 1; at every other time the
payload is unspecified (20_memory.md R43, 93_implementation_defined.md U1). -/
def Regs.visible (r : Regs cfg) : Bool × Option (Response cfg) :=
  (r.reqReady, if r.rspValid then some r.payload else none)

/-- Taking the block's one exception, `raise OutOfRange(v)`, its complete effect (60_exceptions.md R144): the offending
value is kept whole, the status is OUT_OF_RANGE, all three digits are poison, the response is valid from the next step,
T is not written. There is no vector, no saved program counter and no mode. -/
def Regs.raiseOutOfRange (r : Regs cfg) (v : BitVec cfg.valw) : Regs cfg :=
  { r with
    V := v
    ST := Status.outOfRange.code
    DA := cfg.poison
    DB := cfg.poison
    DC := cfg.poison
    PH := Phase.done.code }

/-- The return: an error response is taken "exactly as an OK response is", and the block goes back to IDLE with nothing
restored or cleared (60_exceptions.md R145, 41_sequencer.md R105). -/
def Regs.returnToIdle (r : Regs cfg) : Regs cfg := { r with PH := Phase.idle.code }

/-- The input signals of the step about to be taken: those of the schedule's next entry, or a free draw when the
schedule says nothing (20_memory.md R42, notes/assumptions/2.md and 3.md). -/
def State.input (s : State) : Input Config.mrd :=
  match s.sched with
  | [] => unpackInput (Config.freeInputWord s.tick)
  | .signals i :: _ => i
  | .request v :: _ => requestInput v
  | .present v :: _ => requestInput v
  | .take :: _ => takeInput

/-- The instruction of the step about to be taken: the request word's DECOMP when the schedule's next entry is a request
at the user level, and otherwise what the select word selects (30_encoding.md R69). -/
def State.selected (s : State) : Instr :=
  match s.sched with
  | .request v :: _ => decodeReq v
  | [] => decodeSel (selectWord s.input s.regs.PH)
  | .signals _ :: _ => decodeSel (selectWord s.input s.regs.PH)
  | .present _ :: _ => decodeSel (selectWord s.input s.regs.PH)
  | .take :: _ => decodeSel (selectWord s.input s.regs.PH)

/-- The schedule after the step: signals last one step; a request lasts "up to and including the accept" and TAKE "up to
and including the deliver" (30_encoding.md R72), so they are dropped by a step taken in phase IDLE or DONE and kept by
any other. -/
def State.nextSched (s : State) : List Stimulus :=
  match s.sched with
  | [] => []
  | .signals _ :: rest => rest
  | .request v :: rest => if s.regs.reqReady then rest else .request v :: rest
  | .present v :: rest => if s.regs.reqReady then rest else .present v :: rest
  | .take :: rest => if s.regs.rspValid then rest else .take :: rest

/-- The state with other registers. -/
def State.withRegs (s : State) (r : Regs Config.mrd) : State := { s with regs := r }

/-- What a step adds around its instruction: the host's side moves from `s` on, the block's registers are those of `t`. -/
def State.advanceFrom (t s : State) : State := { t with sched := s.nextSched, tick := s.tick + 1 }

end Sys2Proof.Machine
end

