-- ==== Sys2Proof/Machine/Sequencer.lean ====
section
/-! DEFINITION. The sequencer's micro-operations (41_sequencer.md R101 to R108, 70_reset_and_hazards.md R165) on the
registers of any legal configuration, the step function of R100 over them, and their meanings on this hardware's state.
Every right-hand side reads the registers as they were before the step (00_scope.md R12). -/

namespace Sys2Proof.Machine

variable {cfg : Config}

/-- RESET: `PH <- IDLE ; ST <- OK`, "No other register is written" (70_reset_and_hazards.md R165). -/
def Regs.reset (r : Regs cfg) : Regs cfg := { r with PH := Phase.idle.code, ST := Status.ok.code }

/-- WAIT: no register is written (41_sequencer.md R106). -/
def Regs.wait (r : Regs cfg) : Regs cfg := r

/-- ACCEPT: the range check comes first; an operand above `VALUE_MAX` raises OutOfRange, any other is taken into V and
T, the status is OK and the phase STEP_C; the digit registers are not written on that path (41_sequencer.md R101). -/
def Regs.accept (r : Regs cfg) (i : Input cfg) : Regs cfg :=
  if outOfRange i.reqValue then r.raiseOutOfRange i.reqValue
  else
    { r with
      V := i.reqValue
      T := i.reqValue
      ST := (rangeStatus i.reqValue).code
      PH := Phase.stepC.code }

/-- STEP_C: the least significant digit (41_sequencer.md R102). -/
def Regs.stepC (r : Regs cfg) : Regs cfg :=
  { r with DC := digitOf r.T, T := quotientOf r.T, PH := Phase.stepB.code }

/-- STEP_B: the middle digit (41_sequencer.md R103). -/
def Regs.stepB (r : Regs cfg) : Regs cfg :=
  { r with DB := digitOf r.T, T := quotientOf r.T, PH := Phase.stepA.code }

/-- STEP_A: the most significant digit, a move without a modulo; T is not written (41_sequencer.md R104). -/
def Regs.stepA (r : Regs cfg) : Regs cfg := { r with DA := lowDigit r.T, PH := Phase.done.code }

/-- HOLD: no register is written (41_sequencer.md R107). -/
def Regs.hold (r : Regs cfg) : Regs cfg := r

/-- DELIVER: `PH <- IDLE`, "No other register is written" (41_sequencer.md R105). -/
def Regs.deliver (r : Regs cfg) : Regs cfg := r.returnToIdle

/-- What a micro-operation does to the registers; none for the reserved phases (41_sequencer.md R113) and for the user
level, which no select word selects. -/
def Regs.perform (r : Regs cfg) (i : Input cfg) : Instr → Option (Regs cfg)
  | .decomp _ => none
  | .decompIp _ _ _ _ => none
  | .reset => some r.reset
  | .wait => some r.wait
  | .accept => some (r.accept i)
  | .stepC => some r.stepC
  | .stepB => some r.stepB
  | .stepA => some r.stepA
  | .hold => some r.hold
  | .deliver => some r.deliver
  | .reservedPh5 => none
  | .reservedPh6 => none
  | .reservedPh7 => none

/-- The step function of the block, one clock edge: for every state with a legal phase and every input there is exactly
one next state (41_sequencer.md R100); none in a reserved phase without a reset (R113). -/
def Regs.clock (r : Regs cfg) (i : Input cfg) : Option (Regs cfg) :=
  r.perform i (decodeSel (selectWord i r.PH))

/-- Clock edges one after another, with the given inputs (00_scope.md R13). -/
def Regs.clocks (r : Regs cfg) : List (Input cfg) → Option (Regs cfg)
  | [] => some r
  | i :: rest =>
    match r.clock i with
    | some r' => r'.clocks rest
    | none => none

/-- RESET (70_reset_and_hazards.md R165). -/
def execReset (s : State) : Host.Outcome State Fault Refusal := .next (s.withRegs s.regs.reset)

/-- WAIT (41_sequencer.md R106). -/
def execWait (s : State) : Host.Outcome State Fault Refusal := .next (s.withRegs s.regs.wait)

/-- ACCEPT (41_sequencer.md R101); the operand is `in.req_value` of this step. -/
def execAccept (s : State) : Host.Outcome State Fault Refusal := .next (s.withRegs (s.regs.accept s.input))

/-- STEP_C (41_sequencer.md R102). -/
def execStepC (s : State) : Host.Outcome State Fault Refusal := .next (s.withRegs s.regs.stepC)

/-- STEP_B (41_sequencer.md R103). -/
def execStepB (s : State) : Host.Outcome State Fault Refusal := .next (s.withRegs s.regs.stepB)

/-- STEP_A (41_sequencer.md R104). -/
def execStepA (s : State) : Host.Outcome State Fault Refusal := .next (s.withRegs s.regs.stepA)

/-- HOLD (41_sequencer.md R107). -/
def execHold (s : State) : Host.Outcome State Fault Refusal := .next (s.withRegs s.regs.hold)

/-- DELIVER (41_sequencer.md R105); the response taken is the output of the state before the step. -/
def execDeliver (s : State) : Host.Outcome State Fault Refusal := .next (s.withRegs s.regs.deliver)

/-- The stop of the reserved phases, shared by their three rows (41_sequencer.md R113). -/
def stopReserved (code : Code) : Host.Outcome State Fault Refusal := .fault (.reservedPhase code)

/-- RESERVED_PH5: "What a step with `in.rst = 0` does in such a state is not defined" (41_sequencer.md R113). -/
def execReservedPh5 (_ : State) : Host.Outcome State Fault Refusal := stopReserved 5

/-- RESERVED_PH6 (41_sequencer.md R113). -/
def execReservedPh6 (_ : State) : Host.Outcome State Fault Refusal := stopReserved 6

/-- RESERVED_PH7 (41_sequencer.md R113). -/
def execReservedPh7 (_ : State) : Host.Outcome State Fault Refusal := stopReserved 7

end Sys2Proof.Machine
end

