-- ==== Sys2Proof/Machine/Operation.lean ====
section
/-! DEFINITION. The user level: DECOMP and its pseudo-instruction DECOMP.IP (40_decompose.md R80, 30_encoding.md R73).
One DECOMP is one step of the model at this level, from the accept to the response being present; the host takes the
response by a DELIVER of its own (notes/assumptions/4.md, DESIGN CHOICE). -/

namespace Sys2Proof.Machine

variable {cfg : Config}

/-- The registers once the operation on `v` has its response present: OutOfRange raised, or V the operand, the three
digits by the document's closed forms, the status OK, and T the last quotient `v div RADIX^2` (40_decompose.md R80,
41_sequencer.md R112, R114). -/
def Regs.operate (r : Regs cfg) (v : BitVec cfg.valw) : Regs cfg :=
  if outOfRange v then r.raiseOutOfRange v
  else
    { V := v
      T := BitVec.ofNat cfg.valw (closedA cfg.radix v.toNat)
      DA := BitVec.ofNat cfg.digw (closedA cfg.radix v.toNat)
      DB := BitVec.ofNat cfg.digw (closedB cfg.radix v.toNat)
      DC := BitVec.ofNat cfg.digw (closedC cfg.radix v.toNat)
      PH := Phase.done.code
      ST := Status.ok.code }

/-- A request of `v`: in phase IDLE it is accepted and carried out; in any other phase `req_ready` is 0, so the request
"is ignored" (70_reset_and_hazards.md R175, duty 5) while the block takes one clock edge with it presented; in a reserved
phase there is no such edge (41_sequencer.md R113). -/
def requestOperation (v : Value) (s : State) : Host.Outcome State Fault Refusal :=
  if s.regs.reqReady then .next (s.withRegs (s.regs.operate v))
  else
    match s.regs.clock (requestInput v) with
    | some r => .next (s.withRegs r)
    | none => .fault (.reservedPhase s.regs.PH)

/-- DECOMP value (40_decompose.md R80). -/
def execDecomp (value : Value) (s : State) : Host.Outcome State Fault Refusal := requestOperation value s

/-- DECOMP.IP: performs `ip_to_value` on the literal and then is DECOMP; a part outside 0 to 255 is "not a statement of
the notation" (30_encoding.md R73). -/
def execDecompIp (o0 o1 o2 o3 : Nat) (s : State) : Host.Outcome State Fault Refusal :=
  if octetOk o0 && octetOk o1 && octetOk o2 && octetOk o3 then requestOperation (ipToValue o0 o1 o2 o3) s
  else .refused .malformedLiteral

end Sys2Proof.Machine
end

