-- ==== Sys2Proof/Machine/Dispatch.lean ====
section
/-! DEFINITION. One arm per constructor of Instr, each a direct call of that row's meaning. -/

namespace Sys2Proof.Machine

/-- The meaning of every row of the operation map (30_encoding.md R69). -/
def exec (i : Instr) (s : State) : Host.Outcome State Fault Refusal :=
  match i with
  | .decomp value => Sys2Proof.Machine.execDecomp value s
  | .decompIp o0 o1 o2 o3 => Sys2Proof.Machine.execDecompIp o0 o1 o2 o3 s
  | .reset => Sys2Proof.Machine.execReset s
  | .wait => Sys2Proof.Machine.execWait s
  | .accept => Sys2Proof.Machine.execAccept s
  | .stepC => Sys2Proof.Machine.execStepC s
  | .stepB => Sys2Proof.Machine.execStepB s
  | .stepA => Sys2Proof.Machine.execStepA s
  | .hold => Sys2Proof.Machine.execHold s
  | .deliver => Sys2Proof.Machine.execDeliver s
  | .reservedPh5 => Sys2Proof.Machine.execReservedPh5 s
  | .reservedPh6 => Sys2Proof.Machine.execReservedPh6 s
  | .reservedPh7 => Sys2Proof.Machine.execReservedPh7 s

end Sys2Proof.Machine
end

