-- ==== Sys2Proof/Machine/Step.lean ====
section
/-! DEFINITION. One step: select, execute, and move the host's schedule on. Nothing is fetched from a memory
(20_memory.md R52); the instruction of a step is selected by the phase and the inputs, or is the request word the host
runs at the user level (30_encoding.md R69). -/

namespace Sys2Proof.Machine

/-- One step of the machine (41_sequencer.md R100). -/
def step (s : State) : Host.Outcome State Fault Refusal :=
  match exec s.selected s with
  | .next t => .next (t.advanceFrom s)
  | .fault r => .fault r
  | .refused r => .refused r

/-- The machine about to run a word of the operation map. A request word becomes the schedule's next entry. A select word
sets all that selects by it: the phase to its bits 2:0 and the next input signals to its bits 5, 4 and 3, with
`req_value` zero, since the table gives it no bits (notes/assumptions/5.md). -/
def State.withFetchWord (s : State) (nbits w : Nat) : State :=
  if 8 < nbits then { s with sched := .request (BitVec.ofNat Config.mrd.valw w) :: s.sched }
  else
    { s with
      regs := { s.regs with PH := BitVec.ofNat 3 w }
      sched := .signals ⟨w.testBit 5, w.testBit 4, w.testBit 3, 0⟩ :: s.sched }

end Sys2Proof.Machine
end

