-- ==== Sys2Proof/Machine/Reference.lean ====
section
/-! DEFINITION. The reference functions of the surrounding software (42_reference_functions.md): "a model may define
them as plain functions beside the machine". None is a hardware operation and none is called by a step; the laws of the
block are stated through them. -/

namespace Sys2Proof.Machine

/-- A digit of a tuple by its letter, most significant first (00_scope.md R14). -/
inductive Component where
  | a
  | b
  | c
  deriving DecidableEq, Repr

/-- The document's four error kinds, each with the context it reports (42_reference_functions.md R127). -/
inductive ErrorKind where
  /-- OutOfRangeError of a Value, with the offending number. -/
  | valueOutOfRange (n : Int)
  /-- OutOfRangeError of a digit: "report which component and its value" (R120). -/
  | digitOutOfRange (which : Component) (value : Nat)
  /-- InvalidAddressError: an octet outside 0 to 255 (R122). -/
  | invalidAddress
  /-- UnknownWordError: "report which word" (R125). -/
  | unknownWord (word : String)
  /-- InvalidVocabularyError: the uniqueness or size precondition fails at load time (R125). -/
  | invalidVocabulary
  deriving DecidableEq, Repr

/-- The status code space is laid out over the document's error kinds (30_encoding.md R68). -/
def statusOfError : ErrorKind → Status
  | .valueOutOfRange _ => .outOfRange
  | .digitOutOfRange _ _ => .outOfRange
  | .invalidAddress => .invalidAddress
  | .unknownWord _ => .unknownWord
  | .invalidVocabulary => .invalidVocabulary

/-- The weighted sum `a*RADIX^2 + b*RADIX + c`, exact (42_reference_functions.md R120, R121). -/
def weightedSum (radix a b c : Nat) : Nat := a * radix ^ 2 + b * radix + c

/-- `Recompose(a, b, c)`, the document's `decode`: the exact sum, never reduced; the first component outside
`[0, RADIX)` in the order a, b, c is the one reported (42_reference_functions.md R120, R121). -/
def recompose (radix a b c : Nat) : Except ErrorKind Nat :=
  if radix ≤ a then .error (.digitOutOfRange .a a)
  else if radix ≤ b then .error (.digitOutOfRange .b b)
  else if radix ≤ c then .error (.digitOutOfRange .c c)
  else .ok (weightedSum radix a b c)

/-- `InImage(a, b, c)`: "whether the sum is at most `VALUE_MAX`" (42_reference_functions.md R121). -/
def inImage (radix a b c : Nat) : Bool := decide (weightedSum radix a b c ≤ valueMax)

/-- What a caller that needs a Value does with a tuple: it "must check `InImage` and treat its failure as
`OutOfRangeError`" (42_reference_functions.md R121). -/
def recomposeValue (a b c : Nat) : Except ErrorKind Value :=
  match recompose Config.mrd.radix a b c with
  | .error e => .error e
  | .ok n =>
    if inImage Config.mrd.radix a b c then .ok (BitVec.ofNat Config.mrd.valw n) else .error (.valueOutOfRange n)

/-- The host's own check of a number it would present: a negative number, or one wider than the port, is rejected and
never cut down (60_exceptions.md R160). -/
def hostRequest (n : Int) : Except ErrorKind Value :=
  if 0 ≤ n ∧ n < 2 ^ Config.mrd.valw then .ok (BitVec.ofInt Config.mrd.valw n) else .error (.valueOutOfRange n)

/-- The document's `encode` on any number, as host and block give it together: the host rejects what does not fit the
port, the block answers the rest (60_exceptions.md R142, R160). -/
def encodeNumber (n : Int) : Except ErrorKind (Response Config.mrd) :=
  match hostRequest n with
  | .error e => .error e
  | .ok v => .ok (respond v)

/-- The arithmetic part of `ip_to_value`, failing on an octet outside 0 to 255 (42_reference_functions.md R122). -/
def checkedIpToValue (o0 o1 o2 o3 : Nat) : Except ErrorKind Value :=
  if octetOk o0 && octetOk o1 && octetOk o2 && octetOk o3 then .ok (ipToValue o0 o1 o2 o3) else .error .invalidAddress

/-- The four fields that `value_to_ip` extracts, `v[31:24]`, `v[23:16]`, `v[15:8]`, `v[7:0]`
(42_reference_functions.md R123). -/
def octetsOf (v : Value) : List Nat :=
  [(v.extractLsb' 24 8).toNat, (v.extractLsb' 16 8).toNat, (v.extractLsb' 8 8).toNat, (v.extractLsb' 0 8).toNat]

/-- `ValueToIp(v)`: the four fields in decimal, "joined by `.`" (42_reference_functions.md R123). -/
def valueToIp (v : Value) : String := ".".intercalate ((octetsOf v).map toString)

/-- The load-time check of a Vocabulary: "exactly RADIX unique strings" (42_reference_functions.md R124, R125). -/
def loadVocabulary (words : List String) : Except ErrorKind (List String) :=
  if words.length = Config.mrd.radix ∧ words.Nodup then .ok words else .error .invalidVocabulary

/-- `digits_to_words`: "for each digit `i`, returns `Vocabulary[i]`", in the order a, b, c (42_reference_functions.md
R124). It has "No failure path" on a loaded Vocabulary and legal digits; elsewhere it gives none. -/
def digitsToWords (vocabulary : List String) (a b c : Nat) : Option (String × String × String) :=
  match vocabulary[a]?, vocabulary[b]?, vocabulary[c]? with
  | some wa, some wb, some wc => some (wa, wb, wc)
  | _, _, _ => none

/-- The position of one word "via exact string match" (42_reference_functions.md R125). -/
def digitOfWord (vocabulary : List String) (word : String) : Except ErrorKind Nat :=
  match vocabulary.idxOf? word with
  | some i => .ok i
  | none => .error (.unknownWord word)

/-- `words_to_digits` (42_reference_functions.md R125). If several words are absent the first in the order a, b, c is
reported (notes/assumptions/9.md, DESIGN CHOICE). -/
def wordsToDigits (vocabulary : List String) (wa wb wc : String) : Except ErrorKind (Nat × Nat × Nat) :=
  match digitOfWord vocabulary wa, digitOfWord vocabulary wb, digitOfWord vocabulary wc with
  | .ok a, .ok b, .ok c => .ok (a, b, c)
  | .error e, _, _ => .error e
  | .ok _, .error e, _ => .error e
  | .ok _, .ok _, .error e => .error e

/-- `ip_to_words`, `digits_to_words(encode(ip_to_value(ip)))`, the block standing where `encode` stands
(42_reference_functions.md R126). -/
def ipToWords (vocabulary : List String) (o0 o1 o2 o3 : Nat) : Except ErrorKind (Option (String × String × String)) :=
  match checkedIpToValue o0 o1 o2 o3 with
  | .error e => .error e
  | .ok v => .ok (digitsToWords vocabulary (respond v).a.toNat (respond v).b.toNat (respond v).c.toNat)

/-- `words_to_ip`, `value_to_ip(decode(words_to_digits(words)))` (42_reference_functions.md R126). -/
def wordsToIp (vocabulary : List String) (wa wb wc : String) : Except ErrorKind String :=
  match wordsToDigits vocabulary wa wb wc with
  | .error e => .error e
  | .ok (a, b, c) =>
    match recomposeValue a b c with
    | .error e => .error e
    | .ok v => .ok (valueToIp v)

end Sys2Proof.Machine
end

