-- ==== Sys2Proof/Machine/Script.lean ====
section
/-! DEFINITION. The notation for host scripts and traces (30_encoding.md R72, R74): a script is loaded into the host's schedule,
the machine then runs it one clock edge a step, and a trace is a row a step. -/

namespace Sys2Proof.Machine

/-- A statement of a host script (30_encoding.md R72, R73). -/
inductive Statement where
  /-- `RESET n`. -/
  | reset (n : Nat)
  /-- `DECOMP v`. -/
  | decomp (v : Value)
  /-- `DECOMP.IP o0.o1.o2.o3`. -/
  | decompIp (o0 o1 o2 o3 : Nat)
  /-- `TAKE`. -/
  | take
  /-- `IDLE n`. -/
  | idle (n : Nat)
  deriving DecidableEq, Repr

/-- Whether a statement is one of the notation: RESET has `n >= 1` (30_encoding.md R72), the parts of a literal are in
0 to 255 (R73). -/
def statementOk : Statement → Bool
  | .reset n => decide (1 ≤ n)
  | .decomp _ => true
  | .decompIp o0 o1 o2 o3 => octetOk o0 && octetOk o1 && octetOk o2 && octetOk o3
  | .take => true
  | .idle _ => true

/-- The schedule entries of one statement (30_encoding.md R72). -/
def loadStatement : Statement → List Stimulus
  | .reset n => List.replicate n (.signals resetInput)
  | .decomp v => [.present v]
  | .decompIp o0 o1 o2 o3 => [.present (ipToValue o0 o1 o2 o3)]
  | .take => [.take]
  | .idle n => List.replicate n (.signals idleInput)

/-- The schedule of a script; none if a statement is not one of the notation. -/
def loadScript (script : List Statement) : Option (List Stimulus) :=
  if script.all statementOk then some (script.flatMap loadStatement) else none

/-- A row of a trace: the inputs presented at the step, what was selected, the registers after it, and the response
taken at it, if any (30_encoding.md R74). -/
structure TraceRow where
  inputs : Input Config.mrd
  selected : Instr
  after : Regs Config.mrd
  taken : Option (Response Config.mrd)
  deriving DecidableEq, Repr

/-- The trace of the next `n` steps, shorter if the machine stops (30_encoding.md R74). -/
def trace : Nat → State → List TraceRow
  | 0, _ => []
  | n + 1, s =>
    match step s with
    | .next t =>
      { inputs := s.input
        selected := s.selected
        after := t.regs
        taken := if s.regs.rspValid && s.input.rspReady && !s.input.rst then some s.regs.payload else none } :: trace n t
    | .fault _ => []
    | .refused _ => []

/-- The encoding of a script: its input vectors as 35-bit words (30_encoding.md R74). -/
def traceWords (rows : List TraceRow) : List (BitVec (3 + Config.mrd.valw)) := rows.map fun row => packInput row.inputs

end Sys2Proof.Machine
end

