-- ==== Sys2Proof/Safety.lean ====
section
/-! DEFINITION. What claims about runs are stated in: the phase invariant of 41_sequencer.md R112, the accepts and
delivers of a run, what a host may see of it, and when two states look alike to it for ever. -/

namespace Sys2Proof.Machine

variable {cfg : Config}

/-- The phase invariants of 41_sequencer.md R112, the operand `v` of the last ACCEPT being what V holds. The bound on V
in phases STEP_B and STEP_A is R112's STEP_C line carried along, which makes the invariant inductive. -/
structure PhaseInvariant (r : Regs cfg) : Prop where
  phase : r.PH.toNat ≤ 4
  status : r.ST = Status.ok.code ∨ r.ST = Status.outOfRange.code
  stepC : r.PH = Phase.stepC.code → r.V.toNat ≤ valueMax ∧ r.ST = Status.ok.code ∧ r.T = r.V
  stepB : r.PH = Phase.stepB.code →
    r.V.toNat ≤ valueMax ∧ r.ST = Status.ok.code ∧ r.DC.toNat = r.V.toNat % cfg.radix ∧
      r.T.toNat = r.V.toNat / cfg.radix
  stepA : r.PH = Phase.stepA.code →
    r.V.toNat ≤ valueMax ∧ r.ST = Status.ok.code ∧ r.DC.toNat = r.V.toNat % cfg.radix ∧
      r.DB.toNat = r.V.toNat / cfg.radix % cfg.radix ∧ r.T.toNat = r.V.toNat / cfg.radix ^ 2
  doneOk : r.PH = Phase.done.code → r.ST = Status.ok.code →
    r.V.toNat ≤ valueMax ∧ r.DC.toNat = r.V.toNat % cfg.radix ∧
      r.DB.toNat = r.V.toNat / cfg.radix % cfg.radix ∧ r.DA.toNat = r.V.toNat / cfg.radix ^ 2 ∧
      r.T.toNat = r.V.toNat / cfg.radix ^ 2
  doneError : r.PH = Phase.done.code → r.ST = Status.outOfRange.code →
    valueMax < r.V.toNat ∧ r.DA = cfg.poison ∧ r.DB = cfg.poison ∧ r.DC = cfg.poison

/-- An accept: `PH = IDLE` and `in.req_valid = 1` and `in.rst = 0`; the Value it takes (00_scope.md R15). At the user
level a request is accepted under the same condition. -/
def State.accepted (s : State) : Option Value :=
  if s.regs.reqReady && s.input.reqValid && !s.input.rst then some s.input.reqValue else none

/-- A deliver: `PH = DONE` and `in.rsp_ready = 1` and `in.rst = 0`; the response the host takes, which is the output of
the state before the step (00_scope.md R15, 41_sequencer.md R105). -/
def State.delivered (s : State) : Option (Response Config.mrd) :=
  if s.regs.rspValid && s.input.rspReady && !s.input.rst then some s.regs.payload else none

/-- The Values accepted in the next `n` steps, oldest first. -/
def accepts : Nat → State → List Value
  | 0, _ => []
  | n + 1, s =>
    s.accepted.toList ++
      match step s with
      | .next t => accepts n t
      | .fault _ => []
      | .refused _ => []

/-- The responses delivered in the next `n` steps, oldest first. -/
def delivers : Nat → State → List (Response Config.mrd)
  | 0, _ => []
  | n + 1, s =>
    s.delivered.toList ++
      match step s with
      | .next t => delivers n t
      | .fault _ => []
      | .refused _ => []

/-- None of the next `n` steps is a reset. -/
def NoReset : Nat → State → Prop
  | 0, _ => True
  | n + 1, s =>
    s.input.rst = false ∧
      match step s with
      | .next t => NoReset n t
      | .fault _ => True
      | .refused _ => True

/-- None of the next `n` steps is an accept. -/
def NoAccept : Nat → State → Prop
  | 0, _ => True
  | n + 1, s =>
    s.accepted = none ∧
      match step s with
      | .next t => NoAccept n t
      | .fault _ => True
      | .refused _ => True

/-- The response that the operation in flight owes the host; an operation is in flight in every phase but IDLE
(10_state.md R28). -/
def State.owed (s : State) : List (Response Config.mrd) := if s.regs.reqReady then [] else [respond s.regs.V]

/-- Two states that differ only in registers the operation in flight has not written yet or will not use again, so that
no later response can tell them apart (10_state.md R30). Which registers are written by then is 41_sequencer.md R109: V, T
and ST from the accept on, then DC, DB and DA in turn; T is read no more in phase DONE. In phase IDLE nothing is in flight
and no register but PH counts. -/
structure Alike (s1 s2 : State) : Prop where
  sched : s1.sched = s2.sched
  tick : s1.tick = s2.tick
  phase : s1.regs.PH = s2.regs.PH
  legal : s1.regs.PH.toNat ≤ 4
  operand : s1.regs.PH ≠ Phase.idle.code → s1.regs.V = s2.regs.V ∧ s1.regs.ST = s2.regs.ST
  quotient : s1.regs.PH ≠ Phase.idle.code → s1.regs.PH ≠ Phase.done.code → s1.regs.T = s2.regs.T
  digitC : Phase.stepB.code.toNat ≤ s1.regs.PH.toNat → s1.regs.DC = s2.regs.DC
  digitB : Phase.stepA.code.toNat ≤ s1.regs.PH.toNat → s1.regs.DB = s2.regs.DB
  digitA : Phase.done.code.toNat ≤ s1.regs.PH.toNat → s1.regs.DA = s2.regs.DA

/-- What a host that reads the payload only while `rsp_valid` is 1 sees over the next `n` steps. -/
def visibles : Nat → State → List (Bool × Option (Response Config.mrd))
  | 0, _ => []
  | n + 1, s =>
    s.regs.visible ::
      match step s with
      | .next t => visibles n t
      | .fault _ => []
      | .refused _ => []

end Sys2Proof.Machine
end

