-- ==== Sys2Proof/Certificates/Slice0/Obligations.lean ====
section
/-! DEFINITION. The statements for the provers. Phase codes are written as numbers, IDLE 0, STEP_C 1, STEP_B 2, STEP_A 3,
DONE 4 (30_encoding.md R67), and so are the statuses OK 0 and OUT_OF_RANGE 1 (R68). Statements over `cfg` hold for every
configuration that passes the start-up assertion, whatever its `VALW`; the others are about this hardware. No statement
rests on a value that the model chose for a data register at reset, or on what a free draw of the inputs gives. -/

open Sys2Proof Sys2Proof.Machine

/-! ### The micro-operations: selection, effect, and everything they leave alone -/

/-- 70_reset_and_hazards.md R165: RESET is selected whatever the phase and the other inputs, writes PH and ST and nothing
else, and afterwards `req_ready = 1`, `rsp_valid = 0` and no payload is observable. -/
def Obligations.ResetWritesPhaseAndStatusOnly : Prop :=
  (∀ (i : Input Config.mrd) (ph : Code), i.rst = true → decodeSel (selectWord i ph) = .reset) ∧
  ∀ s : State, ∃ t, exec .reset s = .next t ∧ t = { s with regs := { s.regs with PH := 0, ST := 0 } } ∧
    t.regs.reqReady = true ∧ t.regs.rspValid = false ∧ t.regs.visible = (true, none)

/-- 10_state.md R31 and 70_reset_and_hazards.md R168 as far as they give a value: the state after reset has its control
registers at 0. The data registers' values there are the model's choice (notes/assumptions/1.md) and are not stated. -/
def Obligations.AfterResetPhaseIsIdleAndStatusOk : Prop :=
  State.reset.regs.PH = 0 ∧ State.reset.regs.ST = 0 ∧ State.reset.regs.visible = (true, none)

/-- 41_sequencer.md R106: WAIT is selected in phase IDLE without a request and writes no register. -/
def Obligations.WaitWritesNothing : Prop :=
  (∀ i : Input Config.mrd, i.rst = false → i.reqValid = false → decodeSel (selectWord i 0) = .wait) ∧
  ∀ s : State, exec .wait s = .next s

/-- 41_sequencer.md R107: HOLD is selected in phase DONE while the host is not ready and writes no register, so the
payload is stable and no request is accepted. -/
def Obligations.HoldWritesNothing : Prop :=
  (∀ i : Input Config.mrd, i.rst = false → i.rspReady = false → decodeSel (selectWord i 4) = .hold) ∧
  (∀ s : State, exec .hold s = .next s) ∧
  ∀ s t : State, s.regs.PH = 4 → s.input.rst = false → s.input.rspReady = false → step s = .next t →
    t.regs = s.regs ∧ s.accepted = none ∧ s.delivered = none

/-- 41_sequencer.md R101: ACCEPT is selected in phase IDLE with a request, checks the range, and on the normal path takes
the operand into V and T; on the error path it raises OutOfRange. The digit registers, and on the error path T, keep
what they held on the path that does not write them. The error path, which this hardware's port cannot reach, is stated
for the clock edge of every legal configuration. -/
def Obligations.AcceptTakesTheOperandOrRaises : Prop :=
  (∀ i : Input Config.mrd, i.rst = false → i.reqValid = true → decodeSel (selectWord i 0) = .accept) ∧
  (∀ s : State, exec .accept s = .next { s with
    regs :=
      if 4294967295 < s.input.reqValue.toNat then
        { s.regs with V := s.input.reqValue, ST := 1, DA := 2047, DB := 2047, DC := 2047, PH := 4 }
      else { s.regs with V := s.input.reqValue, T := s.input.reqValue, ST := 0, PH := 1 } }) ∧
  ∀ (cfg : Config) (r : Regs cfg) (i : Input cfg), r.PH = 0 → i.rst = false → i.reqValid = true →
    r.clock i = some
      (if 4294967295 < i.reqValue.toNat then
        { r with V := i.reqValue, ST := 1, DA := cfg.poison, DB := cfg.poison, DC := cfg.poison, PH := 4 }
      else { r with V := i.reqValue, T := i.reqValue, ST := 0, PH := 1 })

/-- 41_sequencer.md R102: STEP_C, selected in phase STEP_C whatever the other inputs; both results come from the same old
T, and neither loses a bit. -/
def Obligations.StepCFindsTheLeastDigit : Prop :=
  (∀ i : Input Config.mrd, i.rst = false → decodeSel (selectWord i 1) = .stepC) ∧
  ∀ s : State, ∃ t, exec .stepC s = .next t ∧
    t.regs.DC.toNat = s.regs.T.toNat % 1628 ∧ t.regs.T.toNat = s.regs.T.toNat / 1628 ∧ t.regs.PH = 2 ∧
    t.regs.V = s.regs.V ∧ t.regs.DA = s.regs.DA ∧ t.regs.DB = s.regs.DB ∧ t.regs.ST = s.regs.ST ∧
    t.sched = s.sched ∧ t.tick = s.tick

/-- 41_sequencer.md R103: STEP_B, as STEP_C, for the middle digit; in a state that meets the phase invariant T is at most
2638186 on entry. -/
def Obligations.StepBFindsTheMiddleDigit : Prop :=
  (∀ i : Input Config.mrd, i.rst = false → decodeSel (selectWord i 2) = .stepB) ∧
  (∀ s : State, ∃ t, exec .stepB s = .next t ∧
    t.regs.DB.toNat = s.regs.T.toNat % 1628 ∧ t.regs.T.toNat = s.regs.T.toNat / 1628 ∧ t.regs.PH = 3 ∧
    t.regs.V = s.regs.V ∧ t.regs.DA = s.regs.DA ∧ t.regs.DC = s.regs.DC ∧ t.regs.ST = s.regs.ST ∧
    t.sched = s.sched ∧ t.tick = s.tick) ∧
  ∀ r : Regs Config.mrd, PhaseInvariant r → r.PH = 2 →
    r.T.toNat = r.V.toNat / 1628 ∧ r.T.toNat ≤ 2638186

/-- 41_sequencer.md R104: STEP_A moves the low 11 bits of T into DA without a division and writes no T; in a state that
meets the phase invariant T is at most 1620 on entry, so no bit is lost. -/
def Obligations.StepAStoresTheTopDigit : Prop :=
  (∀ i : Input Config.mrd, i.rst = false → decodeSel (selectWord i 3) = .stepA) ∧
  (∀ s : State, ∃ t, exec .stepA s = .next t ∧
    t.regs.DA = s.regs.T.extractLsb' 0 11 ∧ t.regs.PH = 4 ∧ t.regs.T = s.regs.T ∧
    t.regs.V = s.regs.V ∧ t.regs.DB = s.regs.DB ∧ t.regs.DC = s.regs.DC ∧ t.regs.ST = s.regs.ST ∧
    t.sched = s.sched ∧ t.tick = s.tick) ∧
  ∀ r : Regs Config.mrd, PhaseInvariant r → r.PH = 3 →
    r.T.toNat = r.V.toNat / 2650384 ∧ r.T.toNat ≤ 1620 ∧ (r.T.extractLsb' 0 11).toNat = r.T.toNat

/-- 41_sequencer.md R105: DELIVER is selected in phase DONE when the host is ready, writes only PH, and the response the
host takes is the output of the state before the step; a request presented with it is not accepted. -/
def Obligations.DeliverWritesOnlyThePhase : Prop :=
  (∀ i : Input Config.mrd, i.rst = false → i.rspReady = true → decodeSel (selectWord i 4) = .deliver) ∧
  (∀ s : State, exec .deliver s = .next { s with regs := { s.regs with PH := 0 } }) ∧
  ∀ s : State, s.regs.PH = 4 → s.input.rst = false → s.input.rspReady = true →
    s.delivered = some ⟨s.regs.ST, s.regs.V, s.regs.DA, s.regs.DB, s.regs.DC⟩ ∧ s.accepted = none

/-- 41_sequencer.md R113: the reserved phases. Their rows stop, a state in one shows neither `req_ready` nor `rsp_valid`,
`rst` leads to IDLE, and no step of the machine and no clock edge of any configuration leads into one. -/
def Obligations.ReservedPhasesStop : Prop :=
  (∀ s : State, exec .reservedPh5 s = .fault (.reservedPhase 5) ∧ exec .reservedPh6 s = .fault (.reservedPhase 6) ∧
    exec .reservedPh7 s = .fault (.reservedPhase 7)) ∧
  (∀ i : Input Config.mrd, i.rst = false → decodeSel (selectWord i 5) = .reservedPh5 ∧
    decodeSel (selectWord i 6) = .reservedPh6 ∧ decodeSel (selectWord i 7) = .reservedPh7) ∧
  (∀ s : State, 4 < s.regs.PH.toNat → s.regs.reqReady = false ∧ s.regs.rspValid = false ∧
    (s.input.rst = false → step s = .fault (.reservedPhase s.regs.PH)) ∧
    (s.input.rst = true → ∃ t, step s = .next t ∧ t.regs = { s.regs with PH := 0, ST := 0 })) ∧
  (∀ s t : State, step s = .next t → t.regs.PH.toNat ≤ 4) ∧
  ∀ (cfg : Config) (r r' : Regs cfg) (i : Input cfg), r.clock i = some r' → r'.PH.toNat ≤ 4

/-- The frame of every row on the host's side of State (the model's own fields, notes/assumptions/2.md and 3.md): no
instruction changes the schedule or the step number; the step does. -/
def Obligations.InstructionsLeaveTheHostSideAlone : Prop :=
  ∀ (i : Instr) (s t : State), exec i s = .next t → t.sched = s.sched ∧ t.tick = s.tick

/-! ### The user level -/

/-- DECOMP on this hardware: in phase IDLE a DECOMP of `v` completes with the response
`(OK, v div 1628^2, (v div 1628) mod 1628, v mod 1628, v)` of 40_decompose.md R80 present, no digit losing a bit; and in every
legal configuration an operand above `VALUE_MAX` gives the error response and any other the digits. That one exec runs from
the accept to the response being present is the MODEL'S CHOICE (notes/assumptions/4.md); that PH is then DONE and T is
`v div RADIX^2` is 41_sequencer.md R112 and R114. -/
def Obligations.DecompAnswersWithTheDigits : Prop :=
  (∀ (v : Value) (s : State), s.regs.PH = 0 → ∃ t, exec (.decomp v) s = .next t ∧
    t.regs.ST = 0 ∧ t.regs.DA.toNat = v.toNat / 2650384 ∧ t.regs.DB.toNat = v.toNat / 1628 % 1628 ∧
    t.regs.DC.toNat = v.toNat % 1628 ∧ t.regs.V = v ∧ t.regs.T.toNat = v.toNat / 2650384 ∧ t.regs.PH = 4 ∧
    t.regs.visible = (false, some t.regs.payload) ∧ t.sched = s.sched ∧ t.tick = s.tick) ∧
  ∀ (cfg : Config) (r : Regs cfg) (v : BitVec cfg.valw),
    (4294967295 < v.toNat → (r.operate v).payload = ⟨1, v, cfg.poison, cfg.poison, cfg.poison⟩) ∧
    (v.toNat ≤ 4294967295 → (r.operate v).ST = 0 ∧ (r.operate v).V = v ∧
      (r.operate v).DA.toNat = v.toNat / cfg.radix ^ 2 ∧ (r.operate v).DB.toNat = v.toNat / cfg.radix % cfg.radix ∧
      (r.operate v).DC.toNat = v.toNat % cfg.radix)

/-- A DECOMP that finds the block busy does nothing of its own: `req_valid` is ignored while `req_ready` is 0
(70_reset_and_hazards.md R175, duty 5), the block takes the clock edge of its phase, and in phase DONE it holds; in a reserved
phase there is no step with `rst` 0 (41_sequencer.md R113), and that a DECOMP met there stops is the model's reading
(notes/assumptions/14.md, DEDUCED). The form is the model's choice (notes/assumptions/4.md). -/
def Obligations.DecompOnABusyBlockIsIgnored : Prop :=
  ∀ (v : Value) (s : State),
    (s.regs.PH = 1 → exec (.decomp v) s = exec .stepC s) ∧ (s.regs.PH = 2 → exec (.decomp v) s = exec .stepB s) ∧
    (s.regs.PH = 3 → exec (.decomp v) s = exec .stepA s) ∧ (s.regs.PH = 4 → exec (.decomp v) s = .next s) ∧
    (4 < s.regs.PH.toNat → exec (.decomp v) s = .fault (.reservedPhase s.regs.PH))

/-- A DECOMP.IP whose parts are in 0 to 255 is the DECOMP of `(o0 << 24) | (o1 << 16) | (o2 << 8) | o3` (30_encoding.md R73,
42_reference_functions.md R122), and completes in phase IDLE with that Value's digits (40_decompose.md R80); any other literal
is no statement. Two things are the MODEL'S CHOICE: that the operation completes in one exec (notes/assumptions/4.md), and that
such a literal is refused under the name malformedLiteral (notes/assumptions/15.md). -/
def Obligations.DecompIpIsDecompOfTheComposedValue : Prop :=
  (∀ (o0 o1 o2 o3 : Nat) (s : State), o0 ≤ 255 → o1 ≤ 255 → o2 ≤ 255 → o3 ≤ 255 →
    exec (.decompIp o0 o1 o2 o3) s = exec (.decomp (ipToValue o0 o1 o2 o3)) s ∧
    (ipToValue o0 o1 o2 o3).toNat = o0 * 16777216 + o1 * 65536 + o2 * 256 + o3 ∧
    (s.regs.PH = 0 → ∃ t, exec (.decompIp o0 o1 o2 o3) s = .next t ∧
      t.regs.V.toNat = o0 * 16777216 + o1 * 65536 + o2 * 256 + o3 ∧ t.regs.PH = 4 ∧ t.regs.ST = 0 ∧
      t.regs.DA.toNat = t.regs.V.toNat / 2650384 ∧ t.regs.DB.toNat = t.regs.V.toNat / 1628 % 1628 ∧
      t.regs.DC.toNat = t.regs.V.toNat % 1628)) ∧
  ∀ (o0 o1 o2 o3 : Nat) (s : State), 255 < o0 ∨ 255 < o1 ∨ 255 < o2 ∨ 255 < o3 →
    exec (.decompIp o0 o1 o2 o3) s = .refused .malformedLiteral

/-! ### Encodings -/

/-- 30_encoding.md R69: the masks and matches of the operation map. Every one of the 64 select words falls under exactly one
row, and the decoder gives that row's micro-operation; at the user level every request word selects DECOMP. -/
def Obligations.OperationMapIsTheTable : Prop :=
  (∀ w : SelWord, (w &&& 0x20 = 0x20 → decodeSel w = .reset) ∧ (w &&& 0x37 = 0x00 → decodeSel w = .wait) ∧
    (w &&& 0x37 = 0x10 → decodeSel w = .accept) ∧ (w &&& 0x27 = 0x01 → decodeSel w = .stepC) ∧
    (w &&& 0x27 = 0x02 → decodeSel w = .stepB) ∧ (w &&& 0x27 = 0x03 → decodeSel w = .stepA) ∧
    (w &&& 0x2F = 0x04 → decodeSel w = .hold) ∧ (w &&& 0x2F = 0x0C → decodeSel w = .deliver) ∧
    (w &&& 0x27 = 0x05 → decodeSel w = .reservedPh5) ∧ (w &&& 0x27 = 0x06 → decodeSel w = .reservedPh6) ∧
    (w &&& 0x27 = 0x07 → decodeSel w = .reservedPh7)) ∧
  (∀ w : SelWord, (selTable.filter fun row => row.covers w).map (fun row => row.instr) = [decodeSel w]) ∧
  ∀ w : Value, decodeReq w = .decomp w

/-- Decode and encode agree: every well-formed instruction's words decode to it, a DECOMP.IP's to the DECOMP it expands to
(30_encoding.md R61, R69, R73). -/
def Obligations.DecodeOfEncodeIsTheInstruction : Prop :=
  (∀ i : Instr, i.wf = true → decodeBytes (encode i) = .ok (expand i)) ∧
  ∀ i : Instr, (∀ o0 o1 o2 o3, i ≠ .decompIp o0 o1 o2 o3) → expand i = i

/-- Nothing but a select word and a request word decodes (30_encoding.md R60, R61, R69): what the decoder reads from any
bytes, and the names of its refusals. The byte order, the zero bits 7:6 of a select word's byte and the refusals
selectWordTooWide and noSuchLength are the MODEL'S CHOICE (notes/assumptions/6.md): the block moves no bytes. -/
def Obligations.OnlySelectAndRequestWordsDecode : Prop :=
  (∀ b : Byte, decodeBytes [b] = if b.toNat < 64 then .ok (decodeSel (b.extractLsb' 0 6)) else .error .selectWordTooWide) ∧
  (∀ b0 b1 b2 b3 : Byte, ∃ v : Value, decodeBytes [b0, b1, b2, b3] = .ok (.decomp v) ∧
    v.toNat = b0.toNat + 256 * b1.toNat + 65536 * b2.toNat + 16777216 * b3.toNat) ∧
  (∀ bs : List Byte, bs.length ≠ 1 → bs.length ≠ 4 → decodeBytes bs = .error .noSuchLength) ∧
  ∀ (bs : List Byte) (i : Instr), decodeBytes bs = .ok i → i.wf = true

/-- One word for each of the eleven rows of the sequencer level and one request word, written out bit by bit from
30_encoding.md R69 and R61 and the table of 95_test_vectors.md section 2.5. That a select word stands in a byte whose bits 7:6
are zero, so that a seven-bit word is refused, is the MODEL'S CHOICE (notes/assumptions/6.md). -/
def Obligations.KnownWordsDecode : Prop :=
  decodeTableWord 8 0b001000 = some .wait ∧ decodeTableWord 8 0b011000 = some .accept ∧
  decodeTableWord 8 0b010001 = some .stepC ∧ decodeTableWord 8 0b001010 = some .stepB ∧
  decodeTableWord 8 0b000011 = some .stepA ∧ decodeTableWord 8 0b010100 = some .hold ∧
  decodeTableWord 8 0b011100 = some .deliver ∧ decodeTableWord 8 0b111100 = some .reset ∧
  decodeTableWord 8 0b000101 = some .reservedPh5 ∧ decodeTableWord 8 0b010110 = some .reservedPh6 ∧
  decodeTableWord 8 0b001111 = some .reservedPh7 ∧ decodeTableWord 8 0b1000000 = none ∧
  decodeTableWord 32 0x7F000001 = some (.decomp 2130706433)

/-- A step runs the decoded instruction: a word of the operation map put where the machine takes its next instruction is
executed by the very next step, around which the host's side moves on; and a step always executes the instruction selected
(41_sequencer.md R100, 30_encoding.md R69). Where a word is put (`withFetchWord`) is the MODEL'S CHOICE (notes/assumptions/5.md),
and so is the schedule entry that runs a DECOMP at the user level (notes/assumptions/4.md). -/
def Obligations.StepRunsTheDecodedInstruction : Prop :=
  (∀ (s : State) (nbits w : Nat) (i : Instr), decodeTableWord nbits w = some i →
    (s.withFetchWord nbits w).selected = i ∧
    step (s.withFetchWord nbits w) = match exec i (s.withFetchWord nbits w) with
      | .next t => .next { t with sched := (s.withFetchWord nbits w).nextSched, tick := s.tick + 1 }
      | .fault r => .fault r
      | .refused r => .refused r) ∧
  (∀ s : State, step s = match exec s.selected s with
    | .next t => .next { t with sched := s.nextSched, tick := s.tick + 1 }
    | .fault r => .fault r
    | .refused r => .refused r) ∧
  (∀ s : State, (∀ v rest, s.sched ≠ .request v :: rest) → s.selected = decodeSel (selectWord s.input s.regs.PH)) ∧
  ∀ (s : State) (v : Value) (rest : List Stimulus), s.sched = .request v :: rest → s.selected = .decomp v

/-- 30_encoding.md R62: the fields of the 68-bit response word, and the digit word as a number. -/
def Obligations.ResponseWordHasTheFiveFields : Prop :=
  (∀ (cfg : Config) (r : Response cfg), packResponse r = r.status ++ r.value ++ (r.a ++ r.b ++ r.c)) ∧
  ∀ r : Response Config.mrd,
    (packResponse r).extractLsb' 65 3 = r.status ∧ (packResponse r).extractLsb' 33 32 = r.value ∧
    (packResponse r).extractLsb' 22 11 = r.a ∧ (packResponse r).extractLsb' 11 11 = r.b ∧
    (packResponse r).extractLsb' 0 11 = r.c ∧ (packResponse r).extractLsb' 0 33 = digitWord r ∧
    (digitWord r).toNat = r.a.toNat * 2 ^ 22 + r.b.toNat * 2 ^ 11 + r.c.toNat ∧
    ((digitWord r).toNat = r.a.toNat * 2650384 + r.b.toNat * 1628 + r.c.toNat ↔ r.a.toNat = 0 ∧ r.b.toNat = 0)

/-- The input word of a trace (30_encoding.md R74) carries every input signal and nothing else, in every configuration, and its
bits are where R74 puts them. -/
def Obligations.InputWordCarriesEverySignal : Prop :=
  (∀ (cfg : Config) (i : Input cfg), unpackInput (packInput i) = i) ∧
  (∀ (cfg : Config) (w : BitVec (3 + cfg.valw)), packInput (unpackInput w) = w) ∧
  ∀ i : Input Config.mrd, (packInput i).getLsbD 34 = i.rst ∧ (packInput i).getLsbD 33 = i.reqValid ∧
    (packInput i).getLsbD 32 = i.rspReady ∧ (packInput i).extractLsb' 0 32 = i.reqValue

/-! ### Configuration and arithmetic -/

/-- The start-up assertion (70_reset_and_hazards.md R172, 00_scope.md R7): exactly the configurations that meet the five
conditions are built, this hardware is one, radix 1626 is the smallest that passes and 1625 does not. -/
def Obligations.OnlyCoveringConfigurationsAreBuilt : Prop :=
  (∀ p : Params, (elaborate p).isSome = true ↔
    2 ^ 32 ≤ p.radix ^ 3 ∧ 32 ≤ p.valw ∧ p.radix ≤ 2 ^ p.digw ∧ p.radix ≤ 2 ^ p.digw - 1 ∧ p.ndig = 3) ∧
  (∀ (p : Params) (cfg : Config), elaborate p = some cfg → cfg.toParams = p) ∧
  elaborate ⟨1628, 3, 11, 32⟩ = some Config.mrd ∧ (elaborate ⟨1626, 3, 11, 32⟩).isSome = true ∧
  ∀ p : Params, p.radix < 1626 → elaborate p = none

/-- 40_decompose.md R89's last clause and R93: the top digit of every Value is a legal digit exactly when the radix meets the
coverage precondition. -/
def Obligations.TopDigitIsLegalExactlyUnderCoverage : Prop :=
  ∀ radix : Nat, 1 ≤ radix →
    ((∀ v : Nat, v ≤ 4294967295 → closedA radix v < radix) ↔ 4294967296 ≤ radix ^ 3)

/-- 40_decompose.md R84: the sequential form and the closed forms give the same triple. -/
def Obligations.SequentialFormIsTheClosedForm : Prop :=
  ∀ v radix : Nat, 1 ≤ radix →
    v / radix / radix = v / radix ^ 2 ∧
    sequentialDigits radix v = (closedA radix v, closedB radix v, closedC radix v)

/-- 40_decompose.md R86, the Digit Tuple invariant, in every legal configuration. -/
def Obligations.DigitsRecomposeToTheOperand : Prop :=
  ∀ (cfg : Config) (v : BitVec cfg.valw), v.toNat ≤ 4294967295 →
    (respond v).status = 0 ∧
    (respond v).a.toNat * cfg.radix ^ 2 + (respond v).b.toNat * cfg.radix + (respond v).c.toNat = v.toNat

/-- The ranges of the digits (40_decompose.md R85, R87, R89): in every legal configuration all three are legal digits and no
poison; on this hardware `a <= 1620`, `b <= 1627`, `c <= 1627` for every operand. -/
def Obligations.EveryDigitIsInRange : Prop :=
  (∀ (cfg : Config) (v : BitVec cfg.valw), v.toNat ≤ 4294967295 →
    (respond v).a.toNat < cfg.radix ∧ (respond v).b.toNat < cfg.radix ∧ (respond v).c.toNat < cfg.radix ∧
    (respond v).a ≠ cfg.poison ∧ (respond v).b ≠ cfg.poison ∧ (respond v).c ≠ cfg.poison) ∧
  ∀ v : Value, (respond v).a.toNat ≤ 1620 ∧ (respond v).b.toNat ≤ 1627 ∧ (respond v).c.toNat ≤ 1627 ∧
    v.toNat / 1628 ≤ 2638186

/-- 40_decompose.md R88: there is exactly one triple with `b` and `c` legal digits and the operand as its sum, and it is the one
delivered. -/
def Obligations.TheTripleIsUnique : Prop :=
  ∀ (cfg : Config) (v : BitVec cfg.valw), v.toNat ≤ 4294967295 → ∀ a b c : Nat,
    (b < cfg.radix ∧ c < cfg.radix ∧ a * cfg.radix ^ 2 + b * cfg.radix + c = v.toNat) ↔
      (a = (respond v).a.toNat ∧ b = (respond v).b.toNat ∧ c = (respond v).c.toNat)

/-- 40_decompose.md R90: `Recompose(DECOMP(v)) = v`. -/
def Obligations.RecomposeOfDecompIsTheOperand : Prop :=
  ∀ (cfg : Config) (v : BitVec cfg.valw), v.toNat ≤ 4294967295 →
    recompose cfg.radix (respond v).a.toNat (respond v).b.toNat (respond v).c.toNat = .ok v.toNat

/-- 40_decompose.md R91, without its counts: a triple of legal digits is delivered for some Value exactly when it is in the
image, which is up to (1620, 826, 487) in dictionary order; there the round trip on the tuple side holds, and outside it
the sum is rejected as a Value and never wrapped. -/
def Obligations.ImageIsWhereTheRoundTripHolds : Prop :=
  ∀ a b c : Nat, a < 1628 → b < 1628 → c < 1628 →
    (inImage 1628 a b c = true → ∃ v : Value, recomposeValue a b c = .ok v ∧
      (respond v).a.toNat = a ∧ (respond v).b.toNat = b ∧ (respond v).c.toNat = c) ∧
    (inImage 1628 a b c = false →
      recomposeValue a b c = .error (.valueOutOfRange ((a * 2650384 + b * 1628 + c : Nat) : Int)) ∧
      ¬ ∃ v : Value, (respond v).a.toNat = a ∧ (respond v).b.toNat = b ∧ (respond v).c.toNat = c) ∧
    (inImage 1628 a b c = true ↔ a < 1620 ∨ a = 1620 ∧ (b < 826 ∨ b = 826 ∧ c ≤ 487))

/-- 40_decompose.md R92: DECOMP is strictly increasing into the dictionary order, most significant digit first, and so
injective. -/
def Obligations.DecompPreservesOrder : Prop :=
  ∀ (cfg : Config) (v w : BitVec cfg.valw), v.toNat < w.toNat → w.toNat ≤ 4294967295 →
    ((respond v).a.toNat < (respond w).a.toNat ∨
      (respond v).a = (respond w).a ∧ ((respond v).b.toNat < (respond w).b.toNat ∨
        (respond v).b = (respond w).b ∧ (respond v).c.toNat < (respond w).c.toNat)) ∧
    ((respond v).a, (respond v).b, (respond v).c) ≠ ((respond w).a, (respond w).b, (respond w).c)

/-- The next Value has the incremented tuple, a three-digit counter in base 1628 (95_test_vectors.md L-6; it follows from
40_decompose.md R86 and R88). -/
def Obligations.NextValueIncrementsTheTuple : Prop :=
  ∀ v w : Value, w.toNat = v.toNat + 1 →
    ((respond v).c.toNat < 1627 → (respond w).a = (respond v).a ∧ (respond w).b = (respond v).b ∧
      (respond w).c.toNat = (respond v).c.toNat + 1) ∧
    ((respond v).c.toNat = 1627 → (respond v).b.toNat < 1627 → (respond w).a = (respond v).a ∧
      (respond w).b.toNat = (respond v).b.toNat + 1 ∧ (respond w).c.toNat = 0) ∧
    ((respond v).c.toNat = 1627 → (respond v).b.toNat = 1627 →
      (respond w).a.toNat = (respond v).a.toNat + 1 ∧ (respond w).b.toNat = 0 ∧ (respond w).c.toNat = 0)

/-! ### The exception -/

/-- 60_exceptions.md R144: the complete effect of raising OutOfRange, within one ACCEPT step of any configuration, the outputs
from the next step, and that they are held until the host takes them. -/
def Obligations.OutOfRangeIsReportedInBand : Prop :=
  ∀ (cfg : Config) (r : Regs cfg) (i : Input cfg), r.PH = 0 → i.rst = false → i.reqValid = true →
    4294967295 < i.reqValue.toNat →
    ∃ e : Regs cfg, r.clock i = some e ∧
      e = { r with V := i.reqValue, ST := 1, DA := cfg.poison, DB := cfg.poison, DC := cfg.poison, PH := 4 } ∧
      e.visible = (false, some ⟨1, i.reqValue, cfg.poison, cfg.poison, cfg.poison⟩) ∧
      cfg.poison.toNat = 2 ^ cfg.digw - 1 ∧
      ∀ j : Input cfg, j.rst = false → j.rspReady = false → e.clock j = some e

/-- 60_exceptions.md R145: an error response is taken by DELIVER as any other, the block is then ready, and the next ACCEPT
overwrites the status, so that nothing is sticky; the same illegal operand gives the same error again. -/
def Obligations.AnErrorLeavesNoTrace : Prop :=
  ∀ (cfg : Config) (r : Regs cfg) (take i : Input cfg), r.PH = 4 → r.ST = 1 → take.rst = false →
    take.rspReady = true → i.rst = false → i.reqValid = true →
    ∃ d n : Regs cfg, r.clock take = some d ∧ d = { r with PH := 0 } ∧ d.clock i = some n ∧ n.V = i.reqValue ∧
      (i.reqValue.toNat ≤ 4294967295 → n.ST = 0 ∧ n.PH = 1 ∧ n.T = i.reqValue) ∧
      (4294967295 < i.reqValue.toNat → n.ST = 1 ∧ n.PH = 4 ∧ n.DA = cfg.poison ∧ n.DB = cfg.poison ∧
        n.DC = cfg.poison ∧ n.T = r.T)

/-- 30_encoding.md R66: poison is outside the legal digits in every legal configuration, is 2047 here, and a consumer's digit check
rejects a poisoned tuple at its first component. -/
def Obligations.PoisonIsNoDigit : Prop :=
  (∀ cfg : Config, cfg.radix ≤ cfg.poison.toNat ∧
    recompose cfg.radix cfg.poison.toNat cfg.poison.toNat cfg.poison.toNat =
      .error (.digitOutOfRange .a cfg.poison.toNat)) ∧
  Config.mrd.poison = 2047

/-- 60_exceptions.md R143 and 95_test_vectors.md L-7: on this hardware every valid response of a state that meets the phase
invariant has status OK and three legal digits, none of them poison. -/
def Obligations.NoErrorAtThirtyTwoBits : Prop :=
  ∀ s : State, PhaseInvariant s.regs → s.regs.rspValid = true →
    s.regs.payload = respond s.regs.V ∧ s.regs.ST = 0 ∧ s.regs.DA.toNat ≤ 1620 ∧ s.regs.DB.toNat ≤ 1627 ∧
    s.regs.DC.toNat ≤ 1627

/-- The document's boundary (60_exceptions.md R142) and the host's duty not to narrow (R160): 4294967295 and everything from 0 up to
it is answered, every other integer, negative ones among them, is rejected with the offending number named. -/
def Obligations.HostRejectsWhatDoesNotFit : Prop :=
  ∀ n : Int,
    (0 ≤ n → n ≤ 4294967295 → ∃ v : Value, (v.toNat : Int) = n ∧ hostRequest n = .ok v ∧ encodeNumber n = .ok (respond v)) ∧
    (n < 0 ∨ 4294967295 < n → hostRequest n = .error (.valueOutOfRange n) ∧ encodeNumber n = .error (.valueOutOfRange n))

/-! ### Outputs, control transfer, register use -/

/-- 20_memory.md R43: the outputs are functions of the state, and `req_ready` and `rsp_valid` are never 1 together. -/
def Obligations.OutputsAreFunctionsOfTheState : Prop :=
  ∀ (cfg : Config) (r : Regs cfg),
    (r.reqReady = true ↔ r.PH = 0) ∧ (r.rspValid = true ↔ r.PH = 4) ∧ ¬ (r.reqReady = true ∧ r.rspValid = true) ∧
    r.payload = ⟨r.ST, r.V, r.DA, r.DB, r.DC⟩ ∧
    (r.rspValid = false → r.visible = (r.reqReady, none)) ∧ (r.rspValid = true → r.visible = (false, some r.payload))

/-- 41_sequencer.md R110: the complete transition table of the phase register, in every legal configuration; at `VALW = 32` the
error row is never taken. -/
def Obligations.PhaseTransitionTable : Prop :=
  (∀ (cfg : Config) (r : Regs cfg) (i : Input cfg), i.rst = true → ∃ r', r.clock i = some r' ∧ r'.PH = 0) ∧
  (∀ (cfg : Config) (r : Regs cfg) (i : Input cfg), i.rst = false →
    (r.PH = 0 → i.reqValid = false → ∃ r', r.clock i = some r' ∧ r'.PH = 0) ∧
    (r.PH = 0 → i.reqValid = true → i.reqValue.toNat ≤ 4294967295 → ∃ r', r.clock i = some r' ∧ r'.PH = 1) ∧
    (r.PH = 0 → i.reqValid = true → 4294967295 < i.reqValue.toNat → ∃ r', r.clock i = some r' ∧ r'.PH = 4) ∧
    (r.PH = 1 → ∃ r', r.clock i = some r' ∧ r'.PH = 2) ∧ (r.PH = 2 → ∃ r', r.clock i = some r' ∧ r'.PH = 3) ∧
    (r.PH = 3 → ∃ r', r.clock i = some r' ∧ r'.PH = 4) ∧
    (r.PH = 4 → i.rspReady = false → ∃ r', r.clock i = some r' ∧ r'.PH = 4) ∧
    (r.PH = 4 → i.rspReady = true → ∃ r', r.clock i = some r' ∧ r'.PH = 0)) ∧
  ∀ v : Value, ¬ 4294967295 < v.toNat

/-- Register use (41_sequencer.md R109): a register that changes at a clock edge was written by one of the micro-operations whose
row of the table says so; the phase register is written by every row but WAIT and HOLD. -/
def Obligations.RegistersChangeOnlyWhereTheTableSays : Prop :=
  ∀ (cfg : Config) (r r' : Regs cfg) (i : Input cfg), r.clock i = some r' →
    (r'.V ≠ r.V → decodeSel (selectWord i r.PH) = .accept) ∧
    (r'.T ≠ r.T → decodeSel (selectWord i r.PH) = .accept ∧ i.reqValue.toNat ≤ 4294967295 ∨
      decodeSel (selectWord i r.PH) = .stepC ∨ decodeSel (selectWord i r.PH) = .stepB) ∧
    (r'.DC ≠ r.DC → decodeSel (selectWord i r.PH) = .accept ∧ 4294967295 < i.reqValue.toNat ∨
      decodeSel (selectWord i r.PH) = .stepC) ∧
    (r'.DB ≠ r.DB → decodeSel (selectWord i r.PH) = .accept ∧ 4294967295 < i.reqValue.toNat ∨
      decodeSel (selectWord i r.PH) = .stepB) ∧
    (r'.DA ≠ r.DA → decodeSel (selectWord i r.PH) = .accept ∧ 4294967295 < i.reqValue.toNat ∨
      decodeSel (selectWord i r.PH) = .stepA) ∧
    (r'.ST ≠ r.ST → decodeSel (selectWord i r.PH) = .accept ∨ decodeSel (selectWord i r.PH) = .reset) ∧
    (r'.PH ≠ r.PH → decodeSel (selectWord i r.PH) ≠ .wait ∧ decodeSel (selectWord i r.PH) ≠ .hold)

/-- V "never changed until the next ACCEPT" and ST "written at ACCEPT and by reset, by nothing else" (10_state.md R22, R25), over
every step of the machine, the user level among them. -/
def Obligations.OperandAndStatusLastUntilTheNextAccept : Prop :=
  ∀ s t : State, step s = .next t →
    (s.accepted = none → t.regs.V = s.regs.V ∧ (s.input.rst = false → t.regs.ST = s.regs.ST)) ∧
    ∀ v : Value, s.accepted = some v → t.regs.V = v ∧ t.regs.ST = 0

/-- 60_exceptions.md R147: reset wins over everything, and an accept and a deliver never happen at the same step, nor either with a
reset. -/
def Obligations.ResetWinsAndTransfersExclude : Prop :=
  (∀ (cfg : Config) (r : Regs cfg) (i : Input cfg), i.rst = true → r.clock i = some { r with PH := 0, ST := 0 }) ∧
  ∀ s : State, (s.accepted = none ∨ s.delivered = none) ∧ (s.input.rst = true → s.accepted = none ∧ s.delivered = none)

/-! ### Invariants and runs -/

/-- The phase invariants of 41_sequencer.md R112 are kept by every clock edge of every legal configuration, the error path
included. -/
def Obligations.ClockKeepsThePhaseInvariant : Prop :=
  ∀ (cfg : Config) (r r' : Regs cfg) (i : Input cfg), PhaseInvariant r → r.clock i = some r' → PhaseInvariant r'

/-- The phase invariants of 41_sequencer.md R112 are kept by every step of the machine, at both levels of the operation map and
whatever the inputs. -/
def Obligations.StepKeepsThePhaseInvariant : Prop :=
  ∀ s t : State, PhaseInvariant s.regs → step s = .next t → PhaseInvariant t.regs

/-- The phase invariant holds at reset, and one RESET is enough for it from any state, the power-up contents and the reserved
phases among them (70_reset_and_hazards.md R167). -/
def Obligations.OneResetEstablishesTheInvariant : Prop :=
  PhaseInvariant State.reset.regs ∧
  ∀ s : State, s.input.rst = true → ∃ t, step s = .next t ∧ PhaseInvariant t.regs ∧ t.regs.reqReady = true

/-- Once reset, the machine runs for ever: from a legal phase, whatever the other registers hold and whatever is presented, no
number of steps ends in a fault or a refusal, and the phase stays legal (41_sequencer.md R100, R113); and if the first state
meets the phase invariant, so does every state a run comes to (R112). -/
def Obligations.RunsNeverStop : Prop :=
  (∀ (n : Nat) (s : State), s.regs.PH.toNat ≤ 4 →
    ∃ t, Host.Core.run Sys2Proof.core n s = .next t ∧ t.regs.PH.toNat ≤ 4 ∧ t.tick = s.tick + n) ∧
  ∀ (n : Nat) (s t : State), PhaseInvariant s.regs → Host.Core.run Sys2Proof.core n s = .next t → PhaseInvariant t.regs

/-- 41_sequencer.md R114: agreement of the steps with the operation, in every legal configuration. After the accept of a legal operand
three more edges without a reset, whatever else is presented, make the response of 40_decompose.md R80 visible and not
before; an illegal one is answered at once; the response is held, taken by the first edge with `rsp_ready`, and then the
block is ready. It counts edges: a realisation with a slower divider (R116) is not covered (notes/assumptions/12.md). -/
def Obligations.FourEdgesComputeTheResponse : Prop :=
  ∀ (cfg : Config) (r : Regs cfg) (i i1 i2 i3 : Input cfg), r.PH = 0 → i.rst = false → i.reqValid = true →
    i1.rst = false → i2.rst = false → i3.rst = false →
    (i.reqValue.toNat ≤ 4294967295 → ∃ r1 r2 r3 r4 : Regs cfg,
      r.clock i = some r1 ∧ r1.clock i1 = some r2 ∧ r2.clock i2 = some r3 ∧ r3.clock i3 = some r4 ∧
      r1.visible = (false, none) ∧ r2.visible = (false, none) ∧ r3.visible = (false, none) ∧
      r4 = r.operate i.reqValue ∧
      r4.visible = (false, some ⟨0, i.reqValue, BitVec.ofNat cfg.digw (i.reqValue.toNat / cfg.radix ^ 2),
        BitVec.ofNat cfg.digw (i.reqValue.toNat / cfg.radix % cfg.radix),
        BitVec.ofNat cfg.digw (i.reqValue.toNat % cfg.radix)⟩)) ∧
    (4294967295 < i.reqValue.toNat → ∃ r1 : Regs cfg, r.clock i = some r1 ∧ r1 = r.operate i.reqValue ∧
      r1.visible = (false, some ⟨1, i.reqValue, cfg.poison, cfg.poison, cfg.poison⟩)) ∧
    ∀ (holds : List (Input cfg)) (j : Input cfg), (∀ h ∈ holds, h.rst = false ∧ h.rspReady = false) →
      j.rst = false → j.rspReady = true →
      (r.operate i.reqValue).clocks holds = some (r.operate i.reqValue) ∧
      ∃ r5 : Regs cfg, (r.operate i.reqValue).clock j = some r5 ∧ r5.visible = (true, none)

/-- The user level refines to the sequencer level: on this hardware a DECOMP in phase IDLE gives the registers that four clock edges
without a reset give, ACCEPT, STEP_C, STEP_B, STEP_A, run by the machine's own steps (40_decompose.md R84, 41_sequencer.md R114;
that the operation is one step at the user level is the model's choice, notes/assumptions/4.md). -/
def Obligations.DecompIsFourStepsOfTheSequencer : Prop :=
  ∀ (s : State) (i i1 i2 i3 : Input Config.mrd) (rest : List Stimulus), s.regs.PH = 0 →
    s.sched = .signals i :: .signals i1 :: .signals i2 :: .signals i3 :: rest → i.rst = false → i.reqValid = true →
    i1.rst = false → i2.rst = false → i3.rst = false →
    ∃ t u : State, exec (.decomp i.reqValue) s = .next t ∧ Host.Core.run Sys2Proof.core 4 s = .next u ∧
    u.regs = t.regs ∧ u.sched = rest ∧ u.tick = s.tick + 4 ∧ delivers 4 s = [] ∧ accepts 4 s = [i.reqValue]

/-- The script `DECOMP v`, `TAKE` (30_encoding.md R72) from phase IDLE: one step to the accept and four for the TAKE, one response, that
of `v`, and the block in IDLE with the rest of the script to come. -/
def Obligations.DecompThenTakeDeliversTheResponse : Prop :=
  ∀ (s : State) (v : Value) (rest : List Stimulus), s.regs.PH = 0 → s.sched = .present v :: .take :: rest →
    ∃ t, Host.Core.run Sys2Proof.core 5 s = .next t ∧ t.regs.PH = 0 ∧ t.sched = rest ∧ t.tick = s.tick + 5 ∧
      accepts 5 s = [v] ∧ delivers 5 s = [respond v]

/-- One at a time, in order, matched (20_memory.md R49): over any run without a reset, from any state that meets the phase invariant,
the responses delivered are those owed at the start and then one for each accept in order, each the response
to the Value accepted, but for the at most one still owed at the end. -/
def Obligations.ResponsesAnswerTheAcceptsInOrder : Prop :=
  ∀ (n : Nat) (s : State), PhaseInvariant s.regs → NoReset n s →
    ∃ t, Host.Core.run Sys2Proof.core n s = .next t ∧ s.owed ++ (accepts n s).map respond = delivers n s ++ t.owed ∧ t.owed.length ≤ 1

/-- With resets too (70_reset_and_hazards.md R166, 20_memory.md R49): over any run at all, the responses delivered are, in order, some of
those owed or accepted; a reset can lose a response but never invent, alter or reorder one. -/
def Obligations.ResetsOnlyDropResponses : Prop :=
  ∀ (n : Nat) (s : State), PhaseInvariant s.regs →
    List.Sublist (delivers n s) (s.owed ++ (accepts n s).map respond)

/-- 70_reset_and_hazards.md R166: a reset during an operation abandons it. After it no response is visible or delivered until a new
accept, however long the host waits. -/
def Obligations.AnAbandonedOperationIsNeverAnswered : Prop :=
  ∀ s : State, s.input.rst = true → ∃ s1, step s = .next s1 ∧ s.delivered = none ∧
    ∀ n : Nat, NoAccept n s1 → ∃ t, Host.Core.run Sys2Proof.core n s1 = .next t ∧ delivers n s1 = [] ∧
      t.regs.visible = (true, none)

/-- No history (10_state.md R30, 70_reset_and_hazards.md R176): from two IDLE states whose other registers differ in any way, the
same inputs show a host the same outputs for ever, and the same Values are accepted and responses delivered. -/
def Obligations.StaleRegistersAreNeverSeen : Prop :=
  ∀ (n : Nat) (s1 s2 : State), s1.regs.PH = 0 → s2.regs.PH = 0 → s1.sched = s2.sched → s1.tick = s2.tick →
    visibles n s1 = visibles n s2 ∧ accepts n s1 = accepts n s2 ∧ delivers n s1 = delivers n s2

/-- Progress (41_sequencer.md R115): the compute phases need nothing from the host and cannot be stalled, and a phase that an edge
without a reset leaves as it is is IDLE waiting for a request or DONE waiting for the host. It counts edges, one a divide
(notes/assumptions/12.md). -/
def Obligations.OnlyIdleAndDoneWait : Prop :=
  (∀ (cfg : Config) (r : Regs cfg) (is : List (Input cfg)), 1 ≤ r.PH.toNat → r.PH.toNat ≤ 3 →
    (∀ i ∈ is, i.rst = false) → is.length = 4 - r.PH.toNat →
    ∃ r', r.clocks is = some r' ∧ r'.rspValid = true ∧ r'.V = r.V ∧ r'.ST = r.ST) ∧
  ∀ (cfg : Config) (r r' : Regs cfg) (i : Input cfg), r.clock i = some r' → i.rst = false → r'.PH = r.PH →
    r' = r ∧ (r.PH = 0 ∧ i.reqValid = false ∨ r.PH = 4 ∧ i.rspReady = false)

/-! ### The surrounding software -/

/-- 42_reference_functions.md R120, R121: Recompose's exact sum, and which component it reports. -/
def Obligations.RecomposeIsExactAndNamesTheBadDigit : Prop :=
  ∀ a b c : Nat,
    (a < 1628 → b < 1628 → c < 1628 → recompose 1628 a b c = .ok (a * 2650384 + b * 1628 + c)) ∧
    (1628 ≤ a → recompose 1628 a b c = .error (.digitOutOfRange .a a)) ∧
    (a < 1628 → 1628 ≤ b → recompose 1628 a b c = .error (.digitOutOfRange .b b)) ∧
    (a < 1628 → b < 1628 → 1628 ≤ c → recompose 1628 a b c = .error (.digitOutOfRange .c c))

/-- The octets of a Value, first octet most significant (42_reference_functions.md R122, R123; 20_memory.md R44): composing and
extracting are inverse, so no Value of a well-formed address is out of range. -/
def Obligations.OctetsAndValuesAgree : Prop :=
  (∀ o0 o1 o2 o3 : Nat, o0 ≤ 255 → o1 ≤ 255 → o2 ≤ 255 → o3 ≤ 255 →
    checkedIpToValue o0 o1 o2 o3 = .ok (ipToValue o0 o1 o2 o3) ∧ octetsOf (ipToValue o0 o1 o2 o3) = [o0, o1, o2, o3]) ∧
  (∀ v : Value, ipToValue (v.toNat / 16777216) (v.toNat / 65536 % 256) (v.toNat / 256 % 256) (v.toNat % 256) = v ∧
    octetsOf v = [v.toNat / 16777216, v.toNat / 65536 % 256, v.toNat / 256 % 256, v.toNat % 256]) ∧
  ∀ o0 o1 o2 o3 : Nat, 255 < o0 ∨ 255 < o1 ∨ 255 < o2 ∨ 255 < o3 → checkedIpToValue o0 o1 o2 o3 = .error .invalidAddress

/-- Words and back (42_reference_functions.md R124 to R126, 95_test_vectors.md S6): with any Vocabulary that loads, every Value has
its three words and the words lead back to its tuple and its address. -/
def Obligations.WordsLeadBackToTheAddress : Prop :=
  ∀ (words vocabulary : List String) (v : Value), loadVocabulary words = .ok vocabulary →
    ∃ wa wb wc : String,
      digitsToWords vocabulary (respond v).a.toNat (respond v).b.toNat (respond v).c.toNat = some (wa, wb, wc) ∧
      wordsToDigits vocabulary wa wb wc =
        .ok ((respond v).a.toNat, (respond v).b.toNat, (respond v).c.toNat) ∧
      wordsToIp vocabulary wa wb wc = .ok (valueToIp v)

/-! ### The run statements as laws of one step -/

/-- The matching of responses and accepts (20_memory.md R49), as a law of every step from a state that meets the phase invariant:
without a reset, what was owed and the response to what is accepted are, in order, what is delivered and what is still owed;
a reset accepts and delivers nothing and leaves nothing owed (70_reset_and_hazards.md R166). So no step invents, alters or
reorders a response. -/
def Obligations.EveryStepBalancesAcceptsAndResponses : Prop :=
  ∀ s t : State, PhaseInvariant s.regs → step s = .next t →
    (s.input.rst = false → s.owed ++ s.accepted.toList.map respond = s.delivered.toList ++ t.owed) ∧
    (s.input.rst = true → s.accepted = none ∧ s.delivered = none ∧ t.owed = []) ∧
    List.Sublist (s.delivered.toList ++ t.owed) (s.owed ++ s.accepted.toList.map respond) ∧ t.owed.length ≤ 1

/-- No history (10_state.md R30, 70_reset_and_hazards.md R176), as a relation that every step keeps: two states alike, that is, with
the same phase, the same inputs to come and the same contents in the registers that the operation in flight has written, show
a host the same, accept and deliver the same, and both step to states alike again; and any two IDLE states with the same
inputs to come are alike. The schedule and the step number are the model's own fields (notes/assumptions/2.md and 3.md). -/
def Obligations.EveryStepKeepsStatesAlike : Prop :=
  (∀ s1 s2 : State, s1.regs.PH = 0 → s2.regs.PH = 0 → s1.sched = s2.sched → s1.tick = s2.tick → Alike s1 s2) ∧
  ∀ s1 s2 : State, Alike s1 s2 →
    s1.regs.visible = s2.regs.visible ∧ s1.accepted = s2.accepted ∧ s1.delivered = s2.delivered ∧
    ∃ t1 t2 : State, step s1 = .next t1 ∧ step s2 = .next t2 ∧ Alike t1 t2
end

