-- ==== Sys2Proof/Laws/State.lean ====
section
/-! SUPPORT. One lemma per field per update of the state, all true by rfl, so that no later proof unfolds a record
update. -/

namespace Sys2Proof.Machine

variable {cfg : Config}

/-! ### Updates of State -/

@[simp] theorem withRegs_regs (s : State) (r : Regs Config.mrd) : (s.withRegs r).regs = r := rfl
@[simp] theorem withRegs_sched (s : State) (r : Regs Config.mrd) : (s.withRegs r).sched = s.sched := rfl
@[simp] theorem withRegs_tick (s : State) (r : Regs Config.mrd) : (s.withRegs r).tick = s.tick := rfl
@[simp] theorem withRegs_self (s : State) : s.withRegs s.regs = s := rfl
@[simp] theorem withRegs_withRegs (s : State) (r r' : Regs Config.mrd) : (s.withRegs r).withRegs r' = s.withRegs r' := rfl
@[simp] theorem advanceFrom_regs (t s : State) : (t.advanceFrom s).regs = t.regs := rfl
@[simp] theorem advanceFrom_sched (t s : State) : (t.advanceFrom s).sched = s.nextSched := rfl
@[simp] theorem advanceFrom_tick (t s : State) : (t.advanceFrom s).tick = s.tick + 1 := rfl

/-! ### Updates of the registers by each micro-operation (41_sequencer.md R109) -/

@[simp] theorem reset_V (r : Regs cfg) : r.reset.V = r.V := rfl
@[simp] theorem reset_T (r : Regs cfg) : r.reset.T = r.T := rfl
@[simp] theorem reset_DA (r : Regs cfg) : r.reset.DA = r.DA := rfl
@[simp] theorem reset_DB (r : Regs cfg) : r.reset.DB = r.DB := rfl
@[simp] theorem reset_DC (r : Regs cfg) : r.reset.DC = r.DC := rfl
@[simp] theorem reset_PH (r : Regs cfg) : r.reset.PH = Phase.idle.code := rfl
@[simp] theorem reset_ST (r : Regs cfg) : r.reset.ST = Status.ok.code := rfl

@[simp] theorem wait_eq (r : Regs cfg) : r.wait = r := rfl
@[simp] theorem hold_eq (r : Regs cfg) : r.hold = r := rfl

@[simp] theorem stepC_V (r : Regs cfg) : r.stepC.V = r.V := rfl
@[simp] theorem stepC_T (r : Regs cfg) : r.stepC.T = quotientOf r.T := rfl
@[simp] theorem stepC_DA (r : Regs cfg) : r.stepC.DA = r.DA := rfl
@[simp] theorem stepC_DB (r : Regs cfg) : r.stepC.DB = r.DB := rfl
@[simp] theorem stepC_DC (r : Regs cfg) : r.stepC.DC = digitOf r.T := rfl
@[simp] theorem stepC_PH (r : Regs cfg) : r.stepC.PH = Phase.stepB.code := rfl
@[simp] theorem stepC_ST (r : Regs cfg) : r.stepC.ST = r.ST := rfl

@[simp] theorem stepB_V (r : Regs cfg) : r.stepB.V = r.V := rfl
@[simp] theorem stepB_T (r : Regs cfg) : r.stepB.T = quotientOf r.T := rfl
@[simp] theorem stepB_DA (r : Regs cfg) : r.stepB.DA = r.DA := rfl
@[simp] theorem stepB_DB (r : Regs cfg) : r.stepB.DB = digitOf r.T := rfl
@[simp] theorem stepB_DC (r : Regs cfg) : r.stepB.DC = r.DC := rfl
@[simp] theorem stepB_PH (r : Regs cfg) : r.stepB.PH = Phase.stepA.code := rfl
@[simp] theorem stepB_ST (r : Regs cfg) : r.stepB.ST = r.ST := rfl

@[simp] theorem stepA_V (r : Regs cfg) : r.stepA.V = r.V := rfl
@[simp] theorem stepA_T (r : Regs cfg) : r.stepA.T = r.T := rfl
@[simp] theorem stepA_DA (r : Regs cfg) : r.stepA.DA = lowDigit r.T := rfl
@[simp] theorem stepA_DB (r : Regs cfg) : r.stepA.DB = r.DB := rfl
@[simp] theorem stepA_DC (r : Regs cfg) : r.stepA.DC = r.DC := rfl
@[simp] theorem stepA_PH (r : Regs cfg) : r.stepA.PH = Phase.done.code := rfl
@[simp] theorem stepA_ST (r : Regs cfg) : r.stepA.ST = r.ST := rfl

@[simp] theorem deliver_V (r : Regs cfg) : r.deliver.V = r.V := rfl
@[simp] theorem deliver_T (r : Regs cfg) : r.deliver.T = r.T := rfl
@[simp] theorem deliver_DA (r : Regs cfg) : r.deliver.DA = r.DA := rfl
@[simp] theorem deliver_DB (r : Regs cfg) : r.deliver.DB = r.DB := rfl
@[simp] theorem deliver_DC (r : Regs cfg) : r.deliver.DC = r.DC := rfl
@[simp] theorem deliver_PH (r : Regs cfg) : r.deliver.PH = Phase.idle.code := rfl
@[simp] theorem deliver_ST (r : Regs cfg) : r.deliver.ST = r.ST := rfl

@[simp] theorem raiseOutOfRange_V (r : Regs cfg) (v : BitVec cfg.valw) : (r.raiseOutOfRange v).V = v := rfl
@[simp] theorem raiseOutOfRange_T (r : Regs cfg) (v : BitVec cfg.valw) : (r.raiseOutOfRange v).T = r.T := rfl
@[simp] theorem raiseOutOfRange_DA (r : Regs cfg) (v : BitVec cfg.valw) : (r.raiseOutOfRange v).DA = cfg.poison := rfl
@[simp] theorem raiseOutOfRange_DB (r : Regs cfg) (v : BitVec cfg.valw) : (r.raiseOutOfRange v).DB = cfg.poison := rfl
@[simp] theorem raiseOutOfRange_DC (r : Regs cfg) (v : BitVec cfg.valw) : (r.raiseOutOfRange v).DC = cfg.poison := rfl
@[simp] theorem raiseOutOfRange_PH (r : Regs cfg) (v : BitVec cfg.valw) :
    (r.raiseOutOfRange v).PH = Phase.done.code := rfl
@[simp] theorem raiseOutOfRange_ST (r : Regs cfg) (v : BitVec cfg.valw) :
    (r.raiseOutOfRange v).ST = Status.outOfRange.code := rfl

end Sys2Proof.Machine
end

