-- ==== Sys2Proof/Laws/Decode.lean ====
section
/-! SUPPORT. The decoder's lemmas: which micro-operation a select word built from a phase and an input selects, and how
bytes and numbers go into one another. -/

namespace Sys2Proof.Machine

variable {cfg : Config}

/-- The selection, said once for every input: reset first, then the phase, then one input (60_exceptions.md R147). -/
theorem decodeSel_selectWord (i : Input cfg) (ph : Code) :
    decodeSel (selectWord i ph) =
      if i.rst then .reset
      else
        match ph.toNat with
        | 0 => if i.reqValid then .accept else .wait
        | 1 => .stepC
        | 2 => .stepB
        | 3 => .stepA
        | 4 => if i.rspReady then .deliver else .hold
        | 5 => .reservedPh5
        | 6 => .reservedPh6
        | _ => .reservedPh7 := by
  obtain ⟨rst, reqValid, rspReady, v⟩ := i
  have all : ∀ (x y z : Bool) (p : Code),
      decodeSel (BitVec.ofBool x ++ BitVec.ofBool y ++ BitVec.ofBool z ++ p) =
        if x then .reset
        else
          match p.toNat with
          | 0 => if y then .accept else .wait
          | 1 => .stepC
          | 2 => .stepB
          | 3 => .stepA
          | 4 => if z then .deliver else .hold
          | 5 => .reservedPh5
          | 6 => .reservedPh6
          | _ => .reservedPh7 := by decide
  exact all rst reqValid rspReady ph

/-- A reset wins over everything (70_reset_and_hazards.md R165). -/
theorem decodeSel_rst (i : Input cfg) (ph : Code) (h : i.rst = true) : decodeSel (selectWord i ph) = .reset := by
  simp [decodeSel_selectWord, h]

/-- The user level is never selected by a select word. -/
theorem decodeSel_not_user (w : SelWord) :
    (∀ v, decodeSel w ≠ .decomp v) ∧ ∀ o0 o1 o2 o3, decodeSel w ≠ .decompIp o0 o1 o2 o3 := by
  unfold decodeSel
  constructor <;> intros <;> split <;> (try split) <;> (try split) <;> simp

/-- The select word of a state made ready by `withFetchWord` is the word fetched. -/
theorem selectWord_of_word :
    ∀ w : SelWord,
      BitVec.ofBool (w.getLsbD 5) ++ BitVec.ofBool (w.getLsbD 4) ++ BitVec.ofBool (w.getLsbD 3) ++ w.extractLsb' 0 3 = w := by
  decide

/-- Four bytes joined, as a number. -/
theorem toNat_join4 (b0 b1 b2 b3 : Byte) :
    (b3 ++ b2 ++ b1 ++ b0).toNat = b0.toNat + 256 * b1.toNat + 65536 * b2.toNat + 16777216 * b3.toNat := by
  have h0 := b0.isLt
  have h1 := b1.isLt
  have h2 := b2.isLt
  have h3 := b3.isLt
  simp only [BitVec.toNat_append, Nat.shiftLeft_eq]
  rw [← Nat.shiftLeft_eq, ← Nat.shiftLeft_eq, ← Nat.shiftLeft_eq, ← Nat.shiftLeft_add_eq_or_of_lt h2,
    ← Nat.shiftLeft_add_eq_or_of_lt h1, ← Nat.shiftLeft_add_eq_or_of_lt h0]
  simp only [Nat.shiftLeft_eq]
  omega

/-- The four bytes of a number below `2^32` are decoded to the request word of that number. -/
theorem decodeBytes_bytesOf4 (n : Nat) (h : n < 4294967296) :
    decodeBytes (bytesOf 4 n) = .ok (.decomp (BitVec.ofNat Config.mrd.valw n)) := by
  have e : (BitVec.ofNat 8 (n / 256 / 256 / 256) ++ BitVec.ofNat 8 (n / 256 / 256) ++ BitVec.ofNat 8 (n / 256) ++
      BitVec.ofNat 8 n : Value) = BitVec.ofNat Config.mrd.valw n := by
    apply BitVec.eq_of_toNat_eq
    refine (toNat_join4 _ _ _ _).trans ?_
    simp only [BitVec.toNat_ofNat]
    omega
  simp only [bytesOf, decodeBytes, decodeReq]
  exact congrArg (fun v => Except.ok (Instr.decomp v)) e

end Sys2Proof.Machine
end

