-- ==== Sys2Proof/Laws/Arithmetic.lean ====
section
/-! SUPPORT. The arithmetic of the digits: what a legal configuration gives, and the value of every narrowed result as a
natural number. -/

namespace Sys2Proof.Machine

variable {cfg : Config}

/-- The conditions of 70_reset_and_hazards.md R172, as facts about a configuration. -/
theorem Config.checks (cfg : Config) :
    2 ^ 32 ≤ cfg.radix ^ 3 ∧ 32 ≤ cfg.valw ∧ cfg.radix ≤ 2 ^ cfg.digw ∧ cfg.radix ≤ 2 ^ cfg.digw - 1 ∧ cfg.ndig = 3 := by
  have h := cfg.isLegal
  simp only [Params.legal, Bool.and_eq_true, decide_eq_true_eq] at h
  tauto

/-- A legal radix is at least 1626 (00_scope.md R7). -/
theorem radix_ge (cfg : Config) : 1626 ≤ cfg.radix := by
  by_contra h
  have h1 : cfg.radix ≤ 1625 := by omega
  have h2 := Nat.pow_le_pow_left h1 3
  have h3 := (Config.checks cfg).1
  omega

theorem radix_pos (cfg : Config) : 0 < cfg.radix := lt_of_lt_of_le (by omega) (radix_ge cfg)

theorem radix_lt (cfg : Config) : cfg.radix < 2 ^ cfg.digw := by
  have h := (Config.checks cfg).2.2.2.1
  have := Nat.two_pow_pos cfg.digw
  omega

theorem valueMax_lt (cfg : Config) : valueMax < 2 ^ cfg.valw :=
  lt_of_lt_of_le (by unfold valueMax; omega) (Nat.pow_le_pow_right (by omega) (Config.checks cfg).2.1)

theorem valueMax_lt_cube (cfg : Config) : valueMax < cfg.radix ^ 3 :=
  lt_of_lt_of_le (by unfold valueMax; omega) (Config.checks cfg).1

/-- A digit of a remainder is exact (30_encoding.md R63). -/
@[simp] theorem digitOf_toNat (t : BitVec cfg.valw) : (digitOf t).toNat = t.toNat % cfg.radix := by
  rw [digitOf, BitVec.toNat_ofNat]
  exact Nat.mod_eq_of_lt ((Nat.mod_lt _ (radix_pos cfg)).trans (radix_lt cfg))

/-- A quotient never overflows the working register (40_decompose.md R85). -/
@[simp] theorem quotientOf_toNat (t : BitVec cfg.valw) : (quotientOf t).toNat = t.toNat / cfg.radix := by
  rw [quotientOf, BitVec.toNat_ofNat]
  exact Nat.mod_eq_of_lt ((Nat.div_le_self _ _).trans_lt t.isLt)

/-- The slice of STEP_A is exact below `2^DIGW`. -/
theorem lowDigit_toNat (t : BitVec cfg.valw) (h : t.toNat < 2 ^ cfg.digw) : (lowDigit t).toNat = t.toNat := by
  rw [lowDigit, BitVec.toNat_setWidth]
  exact Nat.mod_eq_of_lt h

/-- The top digit of a legal operand is a legal digit: what the coverage precondition is for (40_decompose.md R89). -/
theorem closedA_lt_radix (v : Nat) (h : v ≤ valueMax) : closedA cfg.radix v < cfg.radix := by
  rw [closedA, Nat.div_lt_iff_lt_mul (pow_pos (radix_pos cfg) 2)]
  calc v < cfg.radix ^ 3 := h.trans_lt (valueMax_lt_cube cfg)
    _ = cfg.radix * cfg.radix ^ 2 := by ring

theorem closedB_lt_radix (v : Nat) : closedB cfg.radix v < cfg.radix := Nat.mod_lt _ (radix_pos cfg)

theorem closedC_lt_radix (v : Nat) : closedC cfg.radix v < cfg.radix := Nat.mod_lt _ (radix_pos cfg)

theorem toNat_closedA (v : Nat) (h : v ≤ valueMax) :
    (BitVec.ofNat cfg.digw (closedA cfg.radix v)).toNat = closedA cfg.radix v := by
  rw [BitVec.toNat_ofNat]
  exact Nat.mod_eq_of_lt ((closedA_lt_radix v h).trans (radix_lt cfg))

theorem toNat_closedB (v : Nat) : (BitVec.ofNat cfg.digw (closedB cfg.radix v)).toNat = closedB cfg.radix v := by
  rw [BitVec.toNat_ofNat]
  exact Nat.mod_eq_of_lt ((closedB_lt_radix v).trans (radix_lt cfg))

theorem toNat_closedC (v : Nat) : (BitVec.ofNat cfg.digw (closedC cfg.radix v)).toNat = closedC cfg.radix v := by
  rw [BitVec.toNat_ofNat]
  exact Nat.mod_eq_of_lt ((closedC_lt_radix v).trans (radix_lt cfg))

/-- `(v div R) div R = v div R^2` (40_decompose.md R84). -/
theorem div_div_radix (radix v : Nat) : v / radix / radix = v / radix ^ 2 := by
  rw [Nat.div_div_eq_div_mul, sq]

/-- At `VALW = 32` no operand is out of range (60_exceptions.md R143). -/
@[simp] theorem outOfRange_mrd (v : Value) : outOfRange v = false := by
  have h : v.toNat < 4294967296 := v.isLt
  exact decide_eq_false (by unfold valueMax; omega)

theorem outOfRange_true {v : BitVec cfg.valw} (h : valueMax < v.toNat) : outOfRange v = true := by
  simpa [outOfRange] using h

theorem outOfRange_false {v : BitVec cfg.valw} (h : v.toNat ≤ valueMax) : outOfRange v = false := by
  simpa [outOfRange] using h

end Sys2Proof.Machine
end

