-- ==== Sys2Proof/Laws/Step.lean ====
section
/-! SUPPORT. What a clock edge, an instruction and a step can do, said once. -/

namespace Sys2Proof.Machine

variable {cfg : Config}

/-- The clock edge by reset, phase and input (41_sequencer.md R110), said once: every claim about an edge cites this. -/
theorem clock_eq (r : Regs cfg) (i : Input cfg) :
    r.clock i =
      if i.rst then some r.reset
      else
        match r.PH.toNat with
        | 0 => if i.reqValid then some (r.accept i) else some r
        | 1 => some r.stepC
        | 2 => some r.stepB
        | 3 => some r.stepA
        | 4 => if i.rspReady then some r.deliver else some r
        | _ => none := by
  unfold Regs.clock
  rw [decodeSel_selectWord]
  have h := r.PH.isLt
  split
  · rfl
  · generalize r.PH.toNat = n at h ⊢
    match n, h with
    | 0, _ => cases i.reqValid <;> rfl
    | 1, _ => rfl
    | 2, _ => rfl
    | 3, _ => rfl
    | 4, _ => cases i.rspReady <;> rfl
    | 5, _ => rfl
    | 6, _ => rfl
    | 7, _ => rfl

/-- What one clock edge can do, as cases (41_sequencer.md R110). -/
theorem clock_cases {r r' : Regs cfg} {i : Input cfg} (h : r.clock i = some r') :
    (i.rst = true ∧ r' = r.reset) ∨
    (i.rst = false ∧ r.PH = Phase.idle.code ∧ i.reqValid = false ∧ r' = r) ∨
    (i.rst = false ∧ r.PH = Phase.idle.code ∧ i.reqValid = true ∧ r' = r.accept i) ∨
    (i.rst = false ∧ r.PH = Phase.stepC.code ∧ r' = r.stepC) ∨
    (i.rst = false ∧ r.PH = Phase.stepB.code ∧ r' = r.stepB) ∨
    (i.rst = false ∧ r.PH = Phase.stepA.code ∧ r' = r.stepA) ∨
    (i.rst = false ∧ r.PH = Phase.done.code ∧ i.rspReady = false ∧ r' = r) ∨
    (i.rst = false ∧ r.PH = Phase.done.code ∧ i.rspReady = true ∧ r' = r.deliver) := by
  rw [clock_eq] at h
  have code : ∀ n : Nat, ∀ c : Code, c.toNat = n → c = BitVec.ofNat 3 n := by
    intro n c hc
    rw [← hc, BitVec.ofNat_toNat, BitVec.setWidth_eq]
  split at h
  · rename_i hr
    exact .inl ⟨hr, by simpa using h.symm⟩
  · rename_i hr
    have hr : i.rst = false := by simpa using hr
    split at h
    · rename_i hp
      have hp := code _ _ hp
      split at h
      · rename_i hv; exact .inr (.inr (.inl ⟨hr, hp, hv, by simpa using h.symm⟩))
      · rename_i hv; exact .inr (.inl ⟨hr, hp, by simpa using hv, by simpa using h.symm⟩)
    · rename_i hp; exact .inr (.inr (.inr (.inl ⟨hr, code _ _ hp, by simpa using h.symm⟩)))
    · rename_i hp; exact .inr (.inr (.inr (.inr (.inl ⟨hr, code _ _ hp, by simpa using h.symm⟩))))
    · rename_i hp; exact .inr (.inr (.inr (.inr (.inr (.inl ⟨hr, code _ _ hp, by simpa using h.symm⟩)))))
    · rename_i hp
      have hp := code _ _ hp
      split at h
      · rename_i hv; exact .inr (.inr (.inr (.inr (.inr (.inr (.inr ⟨hr, hp, hv, by simpa using h.symm⟩))))))
      · rename_i hv
        exact .inr (.inr (.inr (.inr (.inr (.inr (.inl ⟨hr, hp, by simpa using hv, by simpa using h.symm⟩))))))
    · simp at h

/-- An edge has a next state whenever the phase is a legal one or `rst` is 1 (41_sequencer.md R100, R113). -/
theorem clock_isSome (r : Regs cfg) (i : Input cfg) (h : r.PH.toNat ≤ 4 ∨ i.rst = true) : ∃ r', r.clock i = some r' := by
  rw [clock_eq]
  split
  · exact ⟨_, rfl⟩
  · rename_i hr
    have h : r.PH.toNat ≤ 4 := by
      rcases h with h | h
      · exact h
      · exact absurd h hr
    split <;> first | exact ⟨_, rfl⟩ | (split <;> exact ⟨_, rfl⟩) | skip
    rename_i h0 h1 h2 h3 h4
    exfalso
    generalize r.PH.toNat = n at *
    match n, h with
    | 0, _ => exact h0 rfl
    | 1, _ => exact h1 rfl
    | 2, _ => exact h2 rfl
    | 3, _ => exact h3 rfl
    | 4, _ => exact h4 rfl

/-- ACCEPT on the normal path (41_sequencer.md R101). -/
theorem accept_legal (r : Regs cfg) (i : Input cfg) (h : i.reqValue.toNat ≤ valueMax) :
    r.accept i =
      { r with V := i.reqValue, T := i.reqValue, ST := Status.ok.code, PH := Phase.stepC.code } := by
  simp [Regs.accept, rangeStatus, outOfRange_false h]

/-- ACCEPT on the error path (60_exceptions.md R144). -/
theorem accept_illegal (r : Regs cfg) (i : Input cfg) (h : valueMax < i.reqValue.toNat) :
    r.accept i = r.raiseOutOfRange i.reqValue := by
  simp [Regs.accept, outOfRange_true h]

/-- An instruction changes nothing of the host's side of State. -/
theorem exec_host (i : Instr) (s t : State) (h : exec i s = .next t) : t.sched = s.sched ∧ t.tick = s.tick := by
  have request : ∀ v, requestOperation v s = .next t → t.sched = s.sched ∧ t.tick = s.tick := by
    intro v hv
    unfold requestOperation at hv
    split at hv
    · cases hv; exact ⟨rfl, rfl⟩
    · split at hv
      · cases hv; exact ⟨rfl, rfl⟩
      · cases hv
  cases i with
  | decomp v => exact request v h
  | decompIp o0 o1 o2 o3 =>
    simp only [exec, execDecompIp] at h
    split at h
    · exact request _ h
    · cases h
  | reservedPh5 => cases h
  | reservedPh6 => cases h
  | reservedPh7 => cases h
  | _ => cases h; exact ⟨rfl, rfl⟩

/-- A micro-operation selected by a select word is one clock edge on the registers, or the stop of a reserved phase. -/
theorem exec_decodeSel (s : State) :
    exec (decodeSel (selectWord s.input s.regs.PH)) s =
      match s.regs.clock s.input with
      | some r => .next (s.withRegs r)
      | none => .fault (.reservedPhase s.regs.PH) := by
  rw [clock_eq, decodeSel_selectWord]
  have h := s.regs.PH.isLt
  have e : s.regs.PH = BitVec.ofNat 3 s.regs.PH.toNat := by simp
  split
  · rfl
  · generalize hn : s.regs.PH.toNat = n at h e ⊢
    match n, h with
    | 0, _ => cases s.input.reqValid <;> rfl
    | 1, _ => rfl
    | 2, _ => rfl
    | 3, _ => rfl
    | 4, _ => cases s.input.rspReady <;> rfl
    | 5, _ => rw [e]; rfl
    | 6, _ => rw [e]; rfl
    | 7, _ => rw [e]; rfl

/-- A user-level request at hand. -/
theorem selected_request {s : State} {v : Value} {rest : List Stimulus} (h : s.sched = .request v :: rest) :
    s.selected = .decomp v ∧ s.input = requestInput v := by
  simp [State.selected, State.input, h, decodeReq]

/-- Everything a step can do: the user-level operation accepted in phase IDLE, or one clock edge with the inputs at hand;
either way the host's side moves on. -/
theorem step_cases {s t : State} (h : step s = .next t) :
    t.sched = s.nextSched ∧ t.tick = s.tick + 1 ∧
      ((∃ v rest, s.sched = .request v :: rest ∧ s.regs.reqReady = true ∧ t.regs = s.regs.operate v) ∨
        s.regs.clock s.input = some t.regs) := by
  unfold step at h
  split at h
  · rename_i u hu
    cases h
    refine ⟨rfl, rfl, ?_⟩
    have micro : exec (decodeSel (selectWord s.input s.regs.PH)) s = .next u → s.regs.clock s.input = some u.regs := by
      intro hm
      rw [exec_decodeSel] at hm
      split at hm
      · rename_i r hr
        cases hm
        exact hr
      · cases hm
    match hs : s.sched with
    | [] => exact .inr (micro (by simpa [State.selected, hs] using hu))
    | .signals _ :: _ => exact .inr (micro (by simpa [State.selected, hs] using hu))
    | .present _ :: _ => exact .inr (micro (by simpa [State.selected, hs] using hu))
    | .take :: _ => exact .inr (micro (by simpa [State.selected, hs] using hu))
    | .request v :: rest =>
      obtain ⟨hsel, hin⟩ := selected_request hs
      rw [hsel] at hu
      simp only [exec, execDecomp, requestOperation] at hu
      split at hu
      · rename_i hr
        cases hu
        exact .inl ⟨v, rest, rfl, hr, rfl⟩
      · split at hu
        · rename_i r hr
          cases hu
          exact .inr (by rw [hin]; exact hr)
        · cases hu
  · cases h
  · cases h

/-- A step that is not a user-level request is a clock edge. -/
theorem step_of_clock {s : State} {r : Regs Config.mrd} (hs : ∀ v rest, s.sched ≠ .request v :: rest)
    (h : s.regs.clock s.input = some r) : step s = .next ((s.withRegs r).advanceFrom s) := by
  have hsel : s.selected = decodeSel (selectWord s.input s.regs.PH) := by
    unfold State.selected
    split
    · rename_i v rest hv; exact absurd hv (hs v rest)
    all_goals rfl
  rw [step, hsel, exec_decodeSel, h]

/-- A step in a legal phase always has a next state (41_sequencer.md R100). -/
theorem step_legal (s : State) (h : s.regs.PH.toNat ≤ 4) : ∃ t, step s = .next t := by
  obtain ⟨r, hr⟩ := clock_isSome s.regs s.input (.inl h)
  match hs : s.sched with
  | .request v :: rest =>
    obtain ⟨hsel, hin⟩ := selected_request hs
    rw [hin] at hr
    have hx : ∃ u, exec (.decomp v) s = .next u := by
      simp only [exec, execDecomp, requestOperation, hr]
      split <;> exact ⟨_, rfl⟩
    obtain ⟨u, hu⟩ := hx
    exact ⟨u.advanceFrom s, by rw [step, hsel, hu]⟩
  | [] => exact ⟨_, step_of_clock (by simp [hs]) hr⟩
  | .signals _ :: _ => exact ⟨_, step_of_clock (by simp [hs]) hr⟩
  | .present _ :: _ => exact ⟨_, step_of_clock (by simp [hs]) hr⟩
  | .take :: _ => exact ⟨_, step_of_clock (by simp [hs]) hr⟩

end Sys2Proof.Machine
end

