-- ==== Sys2Proof/Laws/Operation.lean ====
section
/-! SUPPORT. The user level and the outputs: what an operation leaves in the registers, the value of an address literal, and
the output signals by phase. -/

namespace Sys2Proof.Machine

variable {cfg : Config}

theorem reqReady_iff (r : Regs cfg) : r.reqReady = true ↔ r.PH = 0 := by simp [Regs.reqReady, Phase.code]

theorem rspValid_iff (r : Regs cfg) : r.rspValid = true ↔ r.PH = 4 := by simp [Regs.rspValid, Phase.code]

theorem reqReady_of_ne {r : Regs cfg} (h : r.PH ≠ 0) : r.reqReady = false := by
  simpa [Regs.reqReady, Phase.code] using h

theorem rspValid_of_ne {r : Regs cfg} (h : r.PH ≠ 4) : r.rspValid = false := by
  simpa [Regs.rspValid, Phase.code] using h

/-- Every Value of this hardware is legal (60_exceptions.md R143). -/
theorem value_le (v : Value) : v.toNat ≤ valueMax := by
  have h : v.toNat < 4294967296 := v.isLt
  unfold valueMax
  omega

/-- A legal operation's registers, by field (40_decompose.md R80, 41_sequencer.md R112). -/
theorem operate_legal (r : Regs cfg) (v : BitVec cfg.valw) (h : v.toNat ≤ valueMax) :
    r.operate v =
      { V := v
        T := BitVec.ofNat cfg.valw (closedA cfg.radix v.toNat)
        DA := BitVec.ofNat cfg.digw (closedA cfg.radix v.toNat)
        DB := BitVec.ofNat cfg.digw (closedB cfg.radix v.toNat)
        DC := BitVec.ofNat cfg.digw (closedC cfg.radix v.toNat)
        PH := 4
        ST := 0 } := by
  simp [Regs.operate, outOfRange_false h, Phase.code, Status.code]

/-- An illegal operation raises OutOfRange and does nothing else (60_exceptions.md R144). -/
theorem operate_illegal (r : Regs cfg) (v : BitVec cfg.valw) (h : valueMax < v.toNat) :
    r.operate v = r.raiseOutOfRange v := by
  simp [Regs.operate, outOfRange_true h]

/-- The working register after a legal operation is exact. -/
theorem toNat_closedA_valw (v : BitVec cfg.valw) :
    (BitVec.ofNat cfg.valw (closedA cfg.radix v.toNat)).toNat = closedA cfg.radix v.toNat := by
  rw [BitVec.toNat_ofNat]
  exact Nat.mod_eq_of_lt ((Nat.div_le_self _ _).trans_lt v.isLt)

/-- The payload of an operation is the response to its operand (40_decompose.md R80). -/
theorem operate_payload (r : Regs cfg) (v : BitVec cfg.valw) : (r.operate v).payload = respond v := by
  cases h : outOfRange v <;> simp [Regs.operate, respond, h, Regs.payload, Regs.raiseOutOfRange]

theorem operate_PH (r : Regs cfg) (v : BitVec cfg.valw) : (r.operate v).PH = 4 := by
  cases h : outOfRange v <;> simp [Regs.operate, h, Phase.code]

/-- The response to a legal operand. -/
theorem respond_legal (v : BitVec cfg.valw) (h : v.toNat ≤ valueMax) :
    respond v =
      { status := 0
        value := v
        a := BitVec.ofNat cfg.digw (closedA cfg.radix v.toNat)
        b := BitVec.ofNat cfg.digw (closedB cfg.radix v.toNat)
        c := BitVec.ofNat cfg.digw (closedC cfg.radix v.toNat) } := by
  simp [respond, outOfRange_false h, Status.code]

/-- A DECOMP in phase IDLE. -/
theorem exec_decomp_idle (v : Value) (s : State) (h : s.regs.PH = 0) :
    exec (.decomp v) s = .next (s.withRegs (s.regs.operate v)) := by
  simp [exec, execDecomp, requestOperation, (reqReady_iff s.regs).2 h]

/-- A DECOMP in any other phase is a clock edge with the request presented. -/
theorem exec_decomp_busy (v : Value) (s : State) (h : s.regs.PH ≠ 0) :
    exec (.decomp v) s =
      match s.regs.clock (requestInput v) with
      | some r => .next (s.withRegs r)
      | none => .fault (.reservedPhase s.regs.PH) := by
  cases e : s.regs.clock (requestInput v) <;>
    simp [exec, execDecomp, requestOperation, reqReady_of_ne h, e]

/-- The Value of a well-formed address literal (42_reference_functions.md R122). -/
theorem ipToValue_toNat (o0 o1 o2 o3 : Nat) (h0 : o0 ≤ 255) (h1 : o1 ≤ 255) (h2 : o2 ≤ 255) (h3 : o3 ≤ 255) :
    (ipToValue o0 o1 o2 o3).toNat = o0 * 16777216 + o1 * 65536 + o2 * 256 + o3 := by
  have a : o2 <<< 8 ||| o3 = o2 * 256 + o3 := by
    rw [← Nat.shiftLeft_add_eq_or_of_lt (by omega), Nat.shiftLeft_eq]
  have b : o1 <<< 16 ||| (o2 * 256 + o3) = o1 * 65536 + (o2 * 256 + o3) := by
    rw [← Nat.shiftLeft_add_eq_or_of_lt (by omega), Nat.shiftLeft_eq]
  have c : o0 <<< 24 ||| (o1 * 65536 + (o2 * 256 + o3)) = o0 * 16777216 + (o1 * 65536 + (o2 * 256 + o3)) := by
    rw [← Nat.shiftLeft_add_eq_or_of_lt (by omega), Nat.shiftLeft_eq]
  rw [ipToValue, Nat.or_assoc, Nat.or_assoc, a, b, c, BitVec.toNat_ofNat]
  show _ % 2 ^ 32 = _
  omega

end Sys2Proof.Machine
end

