-- ==== Sys2Proof/Laws/PerInstr.lean ====
section
/-! SUPPORT. The family TableRow: the word that the encoder writes for an instruction is the word of its row of the operation map
(30_encoding.md R69), or the four bytes of a request word (R61). -/

namespace Sys2Proof.Laws.TableRow

/-- A user-level instruction has the four bytes of a request word and no row of the sequencer level; every other is
encoded by the match of its one row. -/
def Statement (i : Instr) : Prop :=
  (encode i).length = 4 ∧ (∀ row ∈ selTable, row.instr ≠ i) ∨
    ∃ row ∈ selTable, row.instr = i ∧ row.want &&& row.mask = row.want ∧ encode i = [row.want.setWidth 8]

theorem decomp (value : Value) : Statement (.decomp value) := .inl ⟨rfl, by simp [selTable]⟩

theorem decompIp (o0 o1 o2 o3 : Nat) : Statement (.decompIp o0 o1 o2 o3) := .inl ⟨rfl, by simp [selTable]⟩

theorem reset : Statement .reset := .inr ⟨⟨0x20, 0x20, .reset⟩, by decide⟩

theorem wait : Statement .wait := .inr ⟨⟨0x37, 0x00, .wait⟩, by decide⟩

theorem accept : Statement .accept := .inr ⟨⟨0x37, 0x10, .accept⟩, by decide⟩

theorem stepC : Statement .stepC := .inr ⟨⟨0x27, 0x01, .stepC⟩, by decide⟩

theorem stepB : Statement .stepB := .inr ⟨⟨0x27, 0x02, .stepB⟩, by decide⟩

theorem stepA : Statement .stepA := .inr ⟨⟨0x27, 0x03, .stepA⟩, by decide⟩

theorem hold : Statement .hold := .inr ⟨⟨0x2F, 0x04, .hold⟩, by decide⟩

theorem deliver : Statement .deliver := .inr ⟨⟨0x2F, 0x0C, .deliver⟩, by decide⟩

theorem reservedPh5 : Statement .reservedPh5 := .inr ⟨⟨0x27, 0x05, .reservedPh5⟩, by decide⟩

theorem reservedPh6 : Statement .reservedPh6 := .inr ⟨⟨0x27, 0x06, .reservedPh6⟩, by decide⟩

theorem reservedPh7 : Statement .reservedPh7 := .inr ⟨⟨0x27, 0x07, .reservedPh7⟩, by decide⟩

end Sys2Proof.Laws.TableRow
end

