-- ==== Sys2Proof/Laws/Run.lean ====
section
/-! SUPPORT. Runs of the machine, one step at a time: the first step taken, what the traces of Safety.lean record of it, and
the step of a reset. -/

namespace Sys2Proof.Machine

theorem run_succ {s t : State} (n : Nat) (h : step s = .next t) :
    Host.Core.run Sys2Proof.core (n + 1) s = Host.Core.run Sys2Proof.core n t := by
  have e : Sys2Proof.core.step s = .next t := h
  simp only [Host.Core.run, e]

theorem accepts_succ {s t : State} (n : Nat) (h : step s = .next t) :
    accepts (n + 1) s = s.accepted.toList ++ accepts n t := by
  simp only [accepts, h]

theorem delivers_succ {s t : State} (n : Nat) (h : step s = .next t) :
    delivers (n + 1) s = s.delivered.toList ++ delivers n t := by
  simp only [delivers, h]

theorem visibles_succ {s t : State} (n : Nat) (h : step s = .next t) :
    visibles (n + 1) s = s.regs.visible :: visibles n t := by
  simp only [visibles, h]

theorem noReset_succ {s t : State} (n : Nat) (h : step s = .next t) :
    NoReset (n + 1) s ↔ s.input.rst = false ∧ NoReset n t := by
  simp only [NoReset, h]

theorem noAccept_succ {s t : State} (n : Nat) (h : step s = .next t) :
    NoAccept (n + 1) s ↔ s.accepted = none ∧ NoAccept n t := by
  simp only [NoAccept, h]

/-- A step with `rst = 1` is never a user-level request. -/
theorem not_request_of_rst {s : State} (h : s.input.rst = true) (v : Value) (rest : List Stimulus) :
    s.sched ≠ .request v :: rest := by
  intro hs
  rw [(selected_request hs).2] at h
  simp [requestInput] at h

/-- The step of a reset, from any state (70_reset_and_hazards.md R165, R167). -/
theorem step_of_rst {s : State} (h : s.input.rst = true) :
    step s = .next ((s.withRegs s.regs.reset).advanceFrom s) :=
  step_of_clock (not_request_of_rst h) (by rw [clock_eq, if_pos h])

/-- The three control bits at the head of a select word or of an input word. -/
theorem controlBits : ∀ x y z : Bool,
    (BitVec.ofBool x ++ BitVec.ofBool y ++ BitVec.ofBool z).getLsbD 2 = x ∧
    (BitVec.ofBool x ++ BitVec.ofBool y ++ BitVec.ofBool z).getLsbD 1 = y ∧
    (BitVec.ofBool x ++ BitVec.ofBool y ++ BitVec.ofBool z).getLsbD 0 = z := by
  decide

end Sys2Proof.Machine
end

