-- ==== Sys2Proof/Tests/Slice0.lean ====
section
/-! SUPPORT. Tests. The expected results are those of the spec's own tables (95_test_vectors.md; the row is named beside each
test) or of its encodings; then one witness for each statement that has hypotheses. -/

namespace Sys2Proof.Tests

open Sys2Proof.Machine

/-- The same hardware with a 33-bit value port, on which an operand can be out of range (95_test_vectors.md section 2.2). -/
abbrev wide : Config where
  radix := 1628
  ndig := 3
  digw := 11
  valw := 33
  isLegal := by decide

/-- Registers in the order that 95_test_vectors.md section 2.3 writes a state. -/
def regsOf (cfg : Config) (ph st v t da db dc : Nat) : Regs cfg where
  V := BitVec.ofNat _ v
  T := BitVec.ofNat _ t
  DA := BitVec.ofNat _ da
  DB := BitVec.ofNat _ db
  DC := BitVec.ofNat _ dc
  PH := BitVec.ofNat _ ph
  ST := BitVec.ofNat _ st

/-- A small state: registers, and what the host will present. -/
def stateOf (r : Regs Config.mrd) (sched : List Stimulus) : State := ⟨r, sched, 0⟩

/-- Inputs in the order that 95_test_vectors.md section 2.3 writes them. -/
def inp (rst valid : Bool) (v : Nat) (ready : Bool) : Input Config.mrd := ⟨rst, valid, ready, BitVec.ofNat _ v⟩

def inpWide (rst valid : Bool) (v : Nat) (ready : Bool) : Input wide := ⟨rst, valid, ready, BitVec.ofNat _ v⟩

/-- The registers after one step of the machine with the given inputs, if there is a next state. -/
def after (r : Regs Config.mrd) (i : Input Config.mrd) : Option (Regs Config.mrd) :=
  match step (stateOf r [.signals i]) with
  | .next t => some t.regs
  | .fault _ => none
  | .refused _ => none

/-! ### WellFormed: an ill-formed term for each check -/

theorem test_wf_first_part : (Instr.decompIp 256 0 0 0).wf = false := by decide
theorem test_wf_second_part : (Instr.decompIp 0 256 0 0).wf = false := by decide
theorem test_wf_third_part : (Instr.decompIp 0 0 256 0).wf = false := by decide
theorem test_wf_last_part : (Instr.decompIp 1 2 3 256).wf = false := by decide
theorem test_wf_edge : (Instr.decompIp 255 255 255 255).wf = true := by decide

/-! ### Decoding: words written out from 30_encoding.md R69 (rst, req_valid, rsp_ready, PH) and R61 -/

theorem test_decode_reset : decodeTableWord 8 0b100000 = some .reset ∧ decodeTableWord 8 0b111100 = some .reset := by decide
theorem test_decode_wait : decodeTableWord 8 0b000000 = some .wait ∧ decodeTableWord 8 0b001000 = some .wait := by decide
theorem test_decode_accept : decodeTableWord 8 0b010000 = some .accept ∧ decodeTableWord 8 0b011000 = some .accept := by decide
theorem test_decode_stepC : decodeTableWord 8 0b010001 = some .stepC := by decide
theorem test_decode_stepB : decodeTableWord 8 0b001010 = some .stepB := by decide
theorem test_decode_stepA : decodeTableWord 8 0b000011 = some .stepA := by decide
theorem test_decode_hold : decodeTableWord 8 0b000100 = some .hold ∧ decodeTableWord 8 0b010100 = some .hold := by decide
theorem test_decode_deliver : decodeTableWord 8 0b001100 = some .deliver ∧ decodeTableWord 8 0b011100 = some .deliver := by decide
theorem test_decode_reserved5 : decodeTableWord 8 0b000101 = some .reservedPh5 := by decide
theorem test_decode_reserved6 : decodeTableWord 8 0b010110 = some .reservedPh6 := by decide
theorem test_decode_reserved7 : decodeTableWord 8 0b001111 = some .reservedPh7 := by decide
theorem test_decode_request : decodeTableWord 32 0x7F000001 = some (.decomp 2130706433) := by decide
theorem test_decode_literal : decodeBytes (encode (.decompIp 127 0 0 1)) = .ok (.decomp 2130706433) := by decide
theorem test_decode_refuses : decodeTableWord 8 0b1000000 = none ∧ decodeTableWord 16 0 = none := by decide

/-! ### One step each (95_test_vectors.md section 2.3) -/

theorem test_wait_M1 : after (regsOf _ 0 0 9 8 7 6 5) (inp false false 3 true) = some (regsOf _ 0 0 9 8 7 6 5) := by decide
theorem test_accept_M2 : after (regsOf _ 0 0 9 8 7 6 5) (inp false true 2130706433 false) =
    some (regsOf _ 1 0 2130706433 2130706433 7 6 5) := by decide
theorem test_accept_M3 : after (regsOf _ 0 0 7 0 0 0 7) (inp false true 0 true) = some (regsOf _ 1 0 0 0 0 0 7) := by decide
theorem test_accept_M4 : (regsOf wide 0 1 4294967296 3 2047 2047 2047).clock (inpWide false true 4294967295 false) =
    some (regsOf _ 1 0 4294967295 4294967295 2047 2047 2047) := by decide
theorem test_accept_M5 : (regsOf wide 0 0 1 3 5 6 7).clock (inpWide false true 4294967296 false) =
    some (regsOf _ 4 1 4294967296 3 2047 2047 2047) := by decide
theorem test_stepC_M6 : after (regsOf _ 1 0 2130706433 2130706433 1 2 3) (inp false true 4 true) =
    some (regsOf _ 2 0 2130706433 1308787 1 2 1197) := by decide
theorem test_stepC_M10 : after (regsOf _ 1 0 4294967295 4294967295 1 2 3) (inp false false 4 false) =
    some (regsOf _ 2 0 4294967295 2638186 1 2 487) := by decide
theorem test_stepB_M11 : after (regsOf _ 2 0 2130706433 1308787 1 2 1197) (inp false true 4 true) =
    some (regsOf _ 3 0 2130706433 803 1 1503 1197) := by decide
theorem test_stepB_M12 : after (regsOf _ 2 0 4294967295 2638186 1 2 487) (inp false true 4 true) =
    some (regsOf _ 3 0 4294967295 1620 1 826 487) := by decide
theorem test_stepA_M14 : after (regsOf _ 3 0 2130706433 803 1 1503 1197) (inp false true 4 true) =
    some (regsOf _ 4 0 2130706433 803 803 1503 1197) := by decide
theorem test_stepA_M15 : after (regsOf _ 3 0 4294967295 1620 1 826 487) (inp false true 4 true) =
    some (regsOf _ 4 0 4294967295 1620 1620 826 487) := by decide
theorem test_hold_M16 : after (regsOf _ 4 0 2130706433 803 803 1503 1197) (inp false true 4 false) =
    some (regsOf _ 4 0 2130706433 803 803 1503 1197) := by decide
theorem test_deliver_M17 : after (regsOf _ 4 0 2130706433 803 803 1503 1197) (inp false true 5 true) =
    some (regsOf _ 0 0 2130706433 803 803 1503 1197) := by decide
theorem test_deliver_M17_taken :
    (stateOf (regsOf _ 4 0 2130706433 803 803 1503 1197) [.signals (inp false true 5 true)]).delivered =
      some ⟨0, 2130706433, 803, 1503, 1197⟩ := by decide
theorem test_reset_M18 : after (regsOf _ 2 0 3232235521 1985402 1 2 1065) (inp true true 9 true) =
    some (regsOf _ 0 0 3232235521 1985402 1 2 1065) := by decide
theorem test_reset_M19 : (regsOf wide 4 1 4294967296 3 2047 2047 2047).clock (inpWide true true 9 true) =
    some (regsOf _ 0 0 4294967296 3 2047 2047 2047) := by decide
theorem test_reserved_stops : step (stateOf (regsOf _ 5 0 1 2 3 4 5) [.signals (inp false true 1 true)]) =
    .fault (.reservedPhase 5) := rfl
theorem test_reserved_reset : after (regsOf _ 7 6 1 2 3 4 5) (inp true false 0 false) = some (regsOf _ 0 0 1 2 3 4 5) := by decide

/-! ### The user level, in one step of the model (95_test_vectors.md sections 2.1 and 2.4) -/

/-- The registers after a user-level request. -/
def answered (r : Regs Config.mrd) (v : Nat) : Option (Regs Config.mrd) :=
  match step (stateOf r [.request (BitVec.ofNat _ v)]) with
  | .next t => some t.regs
  | .fault _ => none
  | .refused _ => none

theorem test_decomp_V21 : answered (regsOf _ 0 1 9 8 7 6 5) 2130706433 =
    some (regsOf _ 4 0 2130706433 803 803 1503 1197) := by decide
theorem test_decomp_V30 : answered (regsOf _ 0 0 9 8 7 6 5) 4294967295 =
    some (regsOf _ 4 0 4294967295 1620 1620 826 487) := by decide
theorem test_decompIp_order : exec (.decompIp 1 2 3 4) State.reset = exec (.decomp 16909060) State.reset := rfl
theorem test_decompIp_refused : exec (.decompIp 1 2 3 256) State.reset = .refused .malformedLiteral := rfl
theorem test_fetch_runs_decomp : step (State.reset.withFetchWord 32 0x0A000001) =
    .next ⟨regsOf _ 4 0 167772161 63 63 490 249, [], 1⟩ := rfl
theorem test_response_word_V25 : packResponse (respond (cfg := Config.mrd) 0xDEADBEEF) = 0x1BD5B7DDF605D829F := by decide
theorem test_response_word_E1 : packResponse (respond (cfg := wide) 0x100000000) = 0x600000001FFFFFFFF := by decide
theorem test_digit_word_V14 : digitWord (respond (cfg := Config.mrd) 2650384) = 0x000400000 := by decide
theorem test_carry_V13 : respond (cfg := Config.mrd) 2650383 = ⟨0, 2650383, 0, 1627, 1627⟩ := by decide

/-! ### Reference functions (95_test_vectors.md section 2.4) -/

theorem test_recompose_W5 : recomposeValue 1620 826 487 = .ok 4294967295 := rfl
theorem test_recompose_W6 : recomposeValue 1620 826 488 = .error (.valueOutOfRange 4294967296) := rfl
theorem test_recompose_W10 : recompose 1628 2047 2047 2047 = .error (.digitOutOfRange .a 2047) := rfl
theorem test_recompose_W11 : recompose 1628 0 1628 0 = .error (.digitOutOfRange .b 1628) := rfl
theorem test_ip_value : ipToValue 192 168 0 1 = 3232235521 ∧ octetsOf 3232235521 = [192, 168, 0, 1] := by decide
theorem test_host_boundary : hostRequest 4294967296 = .error (.valueOutOfRange 4294967296) ∧
    hostRequest (-1) = .error (.valueOutOfRange (-1)) := ⟨rfl, rfl⟩
theorem test_script_P1 : (loadScript [.reset 1, .decompIp 127 0 0 1, .idle 2, .take]) =
    some [.signals resetInput, .present 2130706433, .signals idleInput, .signals idleInput, .take] := by decide
theorem test_input_word_P1 : packInput (inp false true 2130706433 false) = 0x27F000001 := by decide
theorem test_radix_1625_refused : elaborate ⟨1625, 3, 11, 32⟩ = none := rfl

/-! ### Witnesses: for each statement with hypotheses, inputs that meet them together -/

def idleRegs : Regs Config.mrd := regsOf _ 0 0 7 0 0 0 7
def stepBRegs : Regs Config.mrd := regsOf _ 2 0 4294967295 2638186 1 2 487
def stepARegs : Regs Config.mrd := regsOf _ 3 0 4294967295 1620 1 826 487
def doneRegs : Regs Config.mrd := regsOf _ 4 0 4294967295 1620 1620 826 487
def wideError : Regs wide := regsOf _ 4 1 4294967296 3 2047 2047 2047

theorem idle_invariant : PhaseInvariant idleRegs := by constructor <;> decide
theorem stepB_invariant : PhaseInvariant stepBRegs := by constructor <;> decide
theorem stepA_invariant : PhaseInvariant stepARegs := by constructor <;> decide
theorem done_invariant : PhaseInvariant doneRegs := by constructor <;> decide
theorem wideError_invariant : PhaseInvariant wideError := by constructor <;> decide

theorem witness_ResetWritesPhaseAndStatusOnly : (inp true true 1 true).rst = true := by decide
theorem witness_WaitWritesNothing : (inp false false 1 true).rst = false ∧ (inp false false 1 true).reqValid = false := by decide
theorem witness_HoldWritesNothing :
    (stateOf doneRegs [.signals (inp false true 1 false)]).regs.PH = 4 ∧
    (stateOf doneRegs [.signals (inp false true 1 false)]).input.rst = false ∧
    (stateOf doneRegs [.signals (inp false true 1 false)]).input.rspReady = false ∧
    step (stateOf doneRegs [.signals (inp false true 1 false)]) = .next ⟨doneRegs, [], 1⟩ := ⟨rfl, rfl, rfl, rfl⟩
theorem witness_AcceptTakesTheOperandOrRaises :
    (inp false true 4294967295 false).rst = false ∧ (inp false true 4294967295 false).reqValid = true ∧
    (regsOf wide 0 0 1 2 3 4 5).PH = 0 ∧ (inpWide false true 4294967296 false).rst = false ∧
    (inpWide false true 4294967296 false).reqValid = true := by decide
theorem witness_StepCFindsTheLeastDigit : (inp false true 1 true).rst = false := by decide
theorem witness_StepBFindsTheMiddleDigit : PhaseInvariant stepBRegs ∧ stepBRegs.PH = 2 := ⟨stepB_invariant, rfl⟩
theorem witness_StepAStoresTheTopDigit : PhaseInvariant stepARegs ∧ stepARegs.PH = 3 := ⟨stepA_invariant, rfl⟩
theorem witness_DeliverWritesOnlyThePhase :
    (stateOf doneRegs [.take]).regs.PH = 4 ∧ (stateOf doneRegs [.take]).input.rst = false ∧
    (stateOf doneRegs [.take]).input.rspReady = true := by decide
theorem witness_ReservedPhasesStop :
    4 < (stateOf (regsOf _ 5 0 1 2 3 4 5) [.take]).regs.PH.toNat ∧
    (stateOf (regsOf _ 5 0 1 2 3 4 5) [.take]).input.rst = false ∧
    4 < (stateOf (regsOf _ 7 0 1 2 3 4 5) [.signals resetInput]).regs.PH.toNat ∧
    (stateOf (regsOf _ 7 0 1 2 3 4 5) [.signals resetInput]).input.rst = true ∧
    stepARegs.clock (inp false true 1 true) = some (regsOf _ 4 0 4294967295 1620 1620 826 487) := by decide
theorem witness_InstructionsLeaveTheHostSideAlone : exec .wait State.reset = .next State.reset := rfl
theorem witness_DecompAnswersWithTheDigits :
    (stateOf idleRegs []).regs.PH = 0 ∧ 4294967295 < (4294967296 : BitVec wide.valw).toNat ∧
    (4294967295 : BitVec wide.valw).toNat ≤ 4294967295 := by decide
theorem witness_DecompOnABusyBlockIsIgnored :
    (regsOf Config.mrd 1 0 1 2 3 4 5).PH = 1 ∧ (regsOf Config.mrd 2 0 1 2 3 4 5).PH = 2 ∧
    (regsOf Config.mrd 3 0 1 2 3 4 5).PH = 3 ∧ (regsOf Config.mrd 4 0 1 2 3 4 5).PH = 4 ∧
    4 < (regsOf Config.mrd 5 0 1 2 3 4 5).PH.toNat := by decide
theorem witness_DecompIpIsDecompOfTheComposedValue :
    255 ≤ 255 ∧ 0 ≤ 255 ∧ (stateOf idleRegs []).regs.PH = 0 ∧ 255 < 256 := by decide
theorem witness_OperationMapIsTheTable :
    (0x3C : SelWord) &&& 0x20 = 0x20 ∧ (0x08 : SelWord) &&& 0x37 = 0x00 ∧ (0x18 : SelWord) &&& 0x37 = 0x10 ∧
    (0x11 : SelWord) &&& 0x27 = 0x01 ∧ (0x0A : SelWord) &&& 0x27 = 0x02 ∧ (0x1B : SelWord) &&& 0x27 = 0x03 ∧
    (0x14 : SelWord) &&& 0x2F = 0x04 ∧ (0x1C : SelWord) &&& 0x2F = 0x0C ∧ (0x1D : SelWord) &&& 0x27 = 0x05 ∧
    (0x06 : SelWord) &&& 0x27 = 0x06 ∧ (0x1F : SelWord) &&& 0x27 = 0x07 := by decide
theorem witness_DecodeOfEncodeIsTheInstruction :
    (Instr.decompIp 255 0 0 1).wf = true ∧ (Instr.decomp 4294967295).wf = true ∧
    ∀ o0 o1 o2 o3, Instr.decomp 4294967295 ≠ .decompIp o0 o1 o2 o3 := ⟨rfl, rfl, by simp⟩
theorem witness_OnlySelectAndRequestWordsDecode :
    ([0, 0] : List Byte).length ≠ 1 ∧ ([0, 0] : List Byte).length ≠ 4 ∧ decodeBytes [0x3F] = .ok .reset := by decide
theorem witness_StepRunsTheDecodedInstruction :
    decodeTableWord 8 0x3F = some .reset ∧ decodeTableWord 32 0xFFFFFFFF = some (.decomp 4294967295) ∧
    (∀ v rest, (stateOf idleRegs [.take]).sched ≠ .request v :: rest) ∧
    (stateOf idleRegs [.request 5, .take]).sched = .request 5 :: [.take] := ⟨by decide, by decide, by simp [stateOf], rfl⟩
theorem witness_OnlyCoveringConfigurationsAreBuilt :
    (elaborate ⟨1628, 3, 11, 33⟩).isSome = true ∧ elaborate ⟨1628, 3, 11, 33⟩ = some wide ∧
    (⟨1625, 3, 11, 32⟩ : Params).radix < 1626 := ⟨rfl, rfl, by decide⟩
theorem witness_TopDigitIsLegalExactlyUnderCoverage :
    1 ≤ 1626 ∧ 4294967296 ≤ 1626 ^ 3 ∧ 1 ≤ 1625 ∧ ¬ 4294967296 ≤ 1625 ^ 3 := by decide
theorem witness_SequentialFormIsTheClosedForm : 1 ≤ 1 ∧ 1 ≤ 1628 := by decide
theorem witness_DigitsRecomposeToTheOperand :
    (4294967295 : BitVec wide.valw).toNat ≤ 4294967295 ∧ (0 : Value).toNat ≤ 4294967295 := by decide
theorem witness_EveryDigitIsInRange : (4294967295 : BitVec wide.valw).toNat ≤ 4294967295 := by decide
theorem witness_TheTripleIsUnique :
    (2650383 : Value).toNat ≤ 4294967295 ∧ 1627 < Config.mrd.radix ∧
    0 * Config.mrd.radix ^ 2 + 1627 * Config.mrd.radix + 1627 = (2650383 : Value).toNat := by decide
theorem witness_RecomposeOfDecompIsTheOperand : (4294967295 : Value).toNat ≤ 4294967295 := by decide
theorem witness_ImageIsWhereTheRoundTripHolds :
    1620 < 1628 ∧ 826 < 1628 ∧ 487 < 1628 ∧ inImage 1628 1620 826 487 = true ∧ 488 < 1628 ∧
    inImage 1628 1620 826 488 = false := by decide
theorem witness_DecompPreservesOrder :
    (4294967294 : Value).toNat < (4294967295 : Value).toNat ∧ (4294967295 : Value).toNat ≤ 4294967295 := by decide
theorem witness_NextValueIncrementsTheTuple :
    (1 : Value).toNat = (0 : Value).toNat + 1 ∧ (respond (cfg := Config.mrd) 1626).c.toNat < 1627 ∧
    (1628 : Value).toNat = (1627 : Value).toNat + 1 ∧ (respond (cfg := Config.mrd) 1627).c.toNat = 1627 ∧
    (respond (cfg := Config.mrd) 1627).b.toNat < 1627 ∧ (2650384 : Value).toNat = (2650383 : Value).toNat + 1 ∧
    (respond (cfg := Config.mrd) 2650383).c.toNat = 1627 ∧ (respond (cfg := Config.mrd) 2650383).b.toNat = 1627 := by decide
theorem witness_OutOfRangeIsReportedInBand :
    (regsOf wide 0 0 1 2 3 4 5).PH = 0 ∧ (inpWide false true 4294967296 true).rst = false ∧
    (inpWide false true 4294967296 true).reqValid = true ∧
    4294967295 < (inpWide false true 4294967296 true).reqValue.toNat ∧
    (inpWide false true 1 false).rst = false ∧ (inpWide false true 1 false).rspReady = false := by decide
theorem witness_AnErrorLeavesNoTrace :
    wideError.PH = 4 ∧ wideError.ST = 1 ∧ (inpWide false false 0 true).rst = false ∧
    (inpWide false false 0 true).rspReady = true ∧ (inpWide false true 4294967295 false).rst = false ∧
    (inpWide false true 4294967295 false).reqValid = true ∧
    (inpWide false true 4294967295 false).reqValue.toNat ≤ 4294967295 ∧
    4294967295 < (inpWide false true 4294967296 false).reqValue.toNat := by decide
theorem witness_NoErrorAtThirtyTwoBits :
    PhaseInvariant (stateOf doneRegs []).regs ∧ (stateOf doneRegs []).regs.rspValid = true := ⟨done_invariant, rfl⟩
theorem witness_HostRejectsWhatDoesNotFit :
    (0 : Int) ≤ 4294967295 ∧ (4294967295 : Int) ≤ 4294967295 ∧ (-1 : Int) < 0 ∧ (4294967295 : Int) < 4294967296 := by decide
theorem witness_OutputsAreFunctionsOfTheState : idleRegs.rspValid = false ∧ doneRegs.rspValid = true := by decide
theorem witness_PhaseTransitionTable :
    (inpWide true true 1 true).rst = true ∧ (inpWide false false 1 true).rst = false ∧
    (regsOf wide 0 0 1 2 3 4 5).PH = 0 ∧ (inpWide false false 1 true).reqValid = false ∧
    (inpWide false true 4294967295 true).reqValue.toNat ≤ 4294967295 ∧
    4294967295 < (inpWide false true 4294967296 true).reqValue.toNat ∧ (regsOf wide 1 0 1 2 3 4 5).PH = 1 ∧
    (regsOf wide 2 0 1 2 3 4 5).PH = 2 ∧ (regsOf wide 3 0 1 2 3 4 5).PH = 3 ∧ wideError.PH = 4 ∧
    (inpWide false true 1 false).rspReady = false ∧ (inpWide false true 1 true).rspReady = true := by decide
theorem witness_RegistersChangeOnlyWhereTheTableSays :
    (regsOf wide 0 0 1 3 5 6 7).clock (inpWide false true 4294967296 false) =
      some (regsOf _ 4 1 4294967296 3 2047 2047 2047) ∧
    stepARegs.clock (inp false true 1 true) = some doneRegs := by decide
theorem witness_OperandAndStatusLastUntilTheNextAccept :
    step (stateOf idleRegs [.present 9]) = .next ⟨regsOf _ 1 0 9 9 0 0 7, [], 1⟩ ∧
    (stateOf idleRegs [.present 9]).accepted = some 9 ∧
    step (stateOf doneRegs [.take]) = .next ⟨regsOf _ 0 0 4294967295 1620 1620 826 487, [], 1⟩ ∧
    (stateOf doneRegs [.take]).accepted = none ∧ (stateOf doneRegs [.take]).input.rst = false := ⟨rfl, rfl, rfl, rfl, rfl⟩
theorem witness_ResetWinsAndTransfersExclude :
    (inpWide true true 1 true).rst = true ∧ (stateOf doneRegs [.signals resetInput]).input.rst = true := by decide
theorem witness_ClockKeepsThePhaseInvariant :
    PhaseInvariant wideError ∧ wideError.clock (inpWide false false 0 false) = some wideError ∧
    PhaseInvariant stepARegs ∧ stepARegs.clock (inp false true 1 true) = some doneRegs :=
  ⟨wideError_invariant, rfl, stepA_invariant, rfl⟩
theorem witness_StepKeepsThePhaseInvariant :
    PhaseInvariant (stateOf stepARegs [.take]).regs ∧ step (stateOf stepARegs [.take]) = .next ⟨doneRegs, [.take], 1⟩ :=
  ⟨stepA_invariant, rfl⟩
theorem witness_OneResetEstablishesTheInvariant :
    (stateOf (regsOf _ 7 5 1 2 3 4 5) [.signals resetInput]).input.rst = true := by decide
theorem witness_RunsNeverStop :
    (stateOf (regsOf _ 4 7 1 2 3 4 5) [.take]).regs.PH.toNat ≤ 4 ∧ PhaseInvariant (stateOf stepARegs [.take]).regs ∧
    Host.Core.run Sys2Proof.core 1 (stateOf stepARegs [.take]) = .next ⟨doneRegs, [.take], 1⟩ :=
  ⟨by decide, stepA_invariant, rfl⟩
theorem witness_FourEdgesComputeTheResponse :
    (regsOf wide 0 0 1 2 3 4 5).PH = 0 ∧ (inpWide false true 4294967295 true).rst = false ∧
    (inpWide false true 4294967295 true).reqValid = true ∧
    (inpWide false true 4294967295 true).reqValue.toNat ≤ 4294967295 ∧
    (inpWide false true 4294967296 true).rst = false ∧ (inpWide false true 4294967296 true).reqValid = true ∧
    4294967295 < (inpWide false true 4294967296 true).reqValue.toNat ∧
    (∀ h ∈ [inpWide false true 1 false], h.rst = false ∧ h.rspReady = false) ∧
    (inpWide false true 1 true).rst = false ∧ (inpWide false true 1 true).rspReady = true := by decide
theorem witness_DecompIsFourStepsOfTheSequencer :
    (stateOf idleRegs [.signals (inp false true 5 true), .signals (inp false true 6 true),
      .signals (inp false false 0 false), .signals (inp false true 7 false), .take]).regs.PH = 0 ∧
    (inp false true 5 true).rst = false ∧ (inp false true 5 true).reqValid = true ∧
    (inp false true 6 true).rst = false ∧ (inp false false 0 false).rst = false ∧ (inp false true 7 false).rst = false := by
  decide
theorem witness_DecompThenTakeDeliversTheResponse :
    (stateOf idleRegs [.present 5, .take]).regs.PH = 0 ∧
    (stateOf idleRegs [.present 5, .take]).sched = .present 5 :: .take :: [] := by decide
theorem witness_ResponsesAnswerTheAcceptsInOrder :
    PhaseInvariant (stateOf doneRegs [.take]).regs ∧ NoReset 1 (stateOf doneRegs [.take]) :=
  ⟨done_invariant, rfl, trivial⟩
theorem witness_ResetsOnlyDropResponses : PhaseInvariant (stateOf doneRegs [.signals resetInput]).regs := done_invariant
theorem witness_AnAbandonedOperationIsNeverAnswered :
    (stateOf stepBRegs [.signals resetInput, .take]).input.rst = true ∧
    step (stateOf stepBRegs [.signals resetInput, .take]) =
      .next ⟨regsOf _ 0 0 4294967295 2638186 1 2 487, [.take], 1⟩ ∧
    NoAccept 1 ⟨regsOf _ 0 0 4294967295 2638186 1 2 487, [.take], 1⟩ := ⟨rfl, rfl, rfl, trivial⟩
theorem witness_StaleRegistersAreNeverSeen :
    (stateOf idleRegs [.present 5]).regs.PH = 0 ∧ (stateOf (regsOf _ 0 1 1 2 3 4 5) [.present 5]).regs.PH = 0 ∧
    (stateOf idleRegs [.present 5]).sched = (stateOf (regsOf _ 0 1 1 2 3 4 5) [.present 5]).sched ∧
    (stateOf idleRegs [.present 5]).tick = (stateOf (regsOf _ 0 1 1 2 3 4 5) [.present 5]).tick := by decide
theorem witness_OnlyIdleAndDoneWait :
    1 ≤ stepARegs.PH.toNat ∧ stepARegs.PH.toNat ≤ 3 ∧ (∀ i ∈ [inp false true 1 true], i.rst = false) ∧
    [inp false true 1 true].length = 4 - stepARegs.PH.toNat ∧
    doneRegs.clock (inp false true 1 false) = some doneRegs ∧ (inp false true 1 false).rst = false := by decide
theorem witness_RecomposeIsExactAndNamesTheBadDigit : 1627 < 1628 ∧ 1628 ≤ 1628 ∧ 0 < 1628 := by decide
theorem witness_OctetsAndValuesAgree : 255 ≤ 255 ∧ 0 ≤ 255 ∧ 255 < 256 := by decide
theorem witness_EveryStepBalancesAcceptsAndResponses :
    PhaseInvariant (stateOf doneRegs [.take]).regs ∧ (stateOf doneRegs [.take]).input.rst = false ∧
    step (stateOf doneRegs [.take]) = .next ⟨regsOf _ 0 0 4294967295 1620 1620 826 487, [], 1⟩ ∧
    (stateOf doneRegs [.signals resetInput]).input.rst = true ∧
    step (stateOf doneRegs [.signals resetInput]) = .next ⟨regsOf _ 0 0 4294967295 1620 1620 826 487, [], 1⟩ :=
  ⟨done_invariant, rfl, rfl, rfl, rfl⟩
/-- Two states in phase STEP_B that hold the same operand, quotient and digit `c`, and different digits `a` and `b`. -/
theorem witness_EveryStepKeepsStatesAlike :
    Alike (stateOf stepBRegs [.take]) (stateOf (regsOf _ 2 0 4294967295 2638186 7 9 487) [.take]) := by
  constructor <;> decide

/-- 1628 different strings: no source gives the words (91_not_in_source.md N17), and any list of that length without
repetition will do. -/
def someWords : List String := (List.range 1628).map fun n => String.ofList (List.replicate n 'w')

theorem witness_WordsLeadBackToTheAddress : loadVocabulary someWords = .ok someWords := by
  have hl : someWords.length = Config.mrd.radix := by simp [someWords]
  have hn : someWords.Nodup := by
    refine List.Nodup.map ?_ List.nodup_range
    intro m n h
    have e := congrArg String.length h
    simpa using e
  unfold loadVocabulary
  rw [if_pos ⟨hl, hn⟩]

end Sys2Proof.Tests
end

namespace Sys2Proof.Machine

/-- Settles O11, by the law `exec_host`: every row that answers a state writes registers only, and the schedule and the
step number are left to `State.advanceFrom`, which the step applies afterwards. -/
theorem instructionsLeaveTheHostSideAlone : Obligations.InstructionsLeaveTheHostSideAlone :=
  exec_host

end Sys2Proof.Machine

namespace Sys2Proof.Machine

/-! ### The step as an equation, at both levels of the operation map -/

/-- The step of a user-level request in phase IDLE: the whole operation (40_decompose.md R80). -/
theorem step_of_operate {s : State} {v : Value} {rest : List Stimulus} (hs : s.sched = .request v :: rest)
    (hp : s.regs.PH = 0) : step s = .next ((s.withRegs (s.regs.operate v)).advanceFrom s) := by
  rw [step, (selected_request hs).1, exec_decomp_idle v s hp]

/-- Every other step is a clock edge, that of a request to a busy block among them. -/
theorem step_of_edge {s : State} {r : Regs Config.mrd}
    (hs : ∀ v rest, s.sched = .request v :: rest → s.regs.PH ≠ 0) (h : s.regs.clock s.input = some r) :
    step s = .next ((s.withRegs r).advanceFrom s) := by
  by_cases hreq : ∃ v rest, s.sched = .request v :: rest
  · obtain ⟨v, rest, hv⟩ := hreq
    obtain ⟨hsel, hin⟩ := selected_request hv
    rw [hin] at h
    rw [step, hsel, exec_decomp_busy v s (hs v rest hv), h]
  · exact step_of_clock (fun v rest hv => hreq ⟨v, rest, hv⟩) h

/-! ### States alike: where the relation comes from (10_state.md R30) -/

/-- In phase IDLE nothing is in flight, so no register but PH counts. -/
theorem alike_of_idle {s1 s2 : State} (h1 : s1.regs.PH = 0) (h2 : s2.regs.PH = 0) (hs : s1.sched = s2.sched)
    (ht : s1.tick = s2.tick) : Alike s1 s2 where
  sched := hs
  tick := ht
  phase := h1.trans h2.symm
  legal := by simp [h1]
  operand hne := absurd h1 hne
  quotient hne := absurd h1 hne
  digitC hle := by simp [h1, Phase.code] at hle
  digitB hle := by simp [h1, Phase.code] at hle
  digitA hle := by simp [h1, Phase.code] at hle

theorem alike_refl {s : State} (hp : s.regs.PH.toNat ≤ 4) : Alike s s where
  sched := rfl
  tick := rfl
  phase := rfl
  legal := hp
  operand _ := ⟨rfl, rfl⟩
  quotient _ _ := rfl
  digitC _ := rfl
  digitB _ := rfl
  digitA _ := rfl

/-! ### States alike: what a host can see of them -/

section
variable {s1 s2 : State} (h : Alike s1 s2)
include h

theorem Alike.input : s1.input = s2.input := by simp only [State.input, h.sched, h.tick]

theorem Alike.reqReady : s1.regs.reqReady = s2.regs.reqReady := by simp only [Regs.reqReady, h.phase]

theorem Alike.rspValid : s1.regs.rspValid = s2.regs.rspValid := by simp only [Regs.rspValid, h.phase]

theorem Alike.nextSched : s1.nextSched = s2.nextSched := by
  simp only [State.nextSched, h.sched, h.reqReady, h.rspValid]

/-- In phase DONE all five payload registers have been written by the operation in flight (41_sequencer.md R109). -/
theorem Alike.payload (hv : s1.regs.rspValid = true) : s1.regs.payload = s2.regs.payload := by
  have hp := (rspValid_iff _).1 hv
  obtain ⟨hV, hST⟩ := h.operand (by simp [hp, Phase.code])
  have hC := h.digitC (by simp [hp, Phase.code])
  have hB := h.digitB (by simp [hp, Phase.code])
  have hA := h.digitA (by simp [hp, Phase.code])
  simp only [Regs.payload, hV, hST, hA, hB, hC]

theorem Alike.visible : s1.regs.visible = s2.regs.visible := by
  unfold Regs.visible
  rw [← h.reqReady, ← h.rspValid]
  split
  · next hv => rw [h.payload hv]
  · rfl

theorem Alike.accepted : s1.accepted = s2.accepted := by
  simp only [State.accepted, h.reqReady, h.input]

theorem Alike.delivered : s1.delivered = s2.delivered := by
  unfold State.delivered
  rw [← h.input, ← h.rspValid]
  cases hv : s1.regs.rspValid
  · rfl
  · rw [h.payload hv]

/-! ### States alike: every micro-operation keeps the relation

Each writes only what it computes from the registers that already agree, and the set of registers that have to agree grows
by just what it writes. -/

/-- V, T and ST are the operand and its status from here on; the digits do not count yet (41_sequencer.md R101). -/
theorem Alike.accept (i : Input Config.mrd) :
    Alike (s1.withRegs (s1.regs.accept i)) (s2.withRegs (s2.regs.accept i)) := by
  rw [accept_legal _ i (value_le _), accept_legal _ i (value_le _)]
  exact
    { sched := h.sched
      tick := h.tick
      phase := rfl
      legal := by simp [Phase.code]
      operand := fun _ => ⟨rfl, rfl⟩
      quotient := fun _ _ => rfl
      digitC := fun hle => absurd hle (by simp [Phase.code])
      digitB := fun hle => absurd hle (by simp [Phase.code])
      digitA := fun hle => absurd hle (by simp [Phase.code]) }

/-- DC now counts, and it is the remainder of T, which counted (41_sequencer.md R102). -/
theorem Alike.stepC (hp : s1.regs.PH = 1) : Alike (s1.withRegs s1.regs.stepC) (s2.withRegs s2.regs.stepC) := by
  have hT := h.quotient (by simp [hp, Phase.code]) (by simp [hp, Phase.code])
  exact
    { sched := h.sched
      tick := h.tick
      phase := rfl
      legal := by simp [Phase.code]
      operand := fun _ => h.operand (by simp [hp, Phase.code])
      quotient := fun _ _ => congrArg quotientOf hT
      digitC := fun _ => congrArg digitOf hT
      digitB := fun hle => absurd hle (by simp [Phase.code])
      digitA := fun hle => absurd hle (by simp [Phase.code]) }

/-- DB now counts, and it is the remainder of T, which counted (41_sequencer.md R103). -/
theorem Alike.stepB (hp : s1.regs.PH = 2) : Alike (s1.withRegs s1.regs.stepB) (s2.withRegs s2.regs.stepB) := by
  have hT := h.quotient (by simp [hp, Phase.code]) (by simp [hp, Phase.code])
  exact
    { sched := h.sched
      tick := h.tick
      phase := rfl
      legal := by simp [Phase.code]
      operand := fun _ => h.operand (by simp [hp, Phase.code])
      quotient := fun _ _ => congrArg quotientOf hT
      digitC := fun _ => h.digitC (by simp [hp, Phase.code])
      digitB := fun _ => congrArg digitOf hT
      digitA := fun hle => absurd hle (by simp [Phase.code]) }

/-- DA now counts, and it is the low part of T, which counts no longer (41_sequencer.md R104). -/
theorem Alike.stepA (hp : s1.regs.PH = 3) : Alike (s1.withRegs s1.regs.stepA) (s2.withRegs s2.regs.stepA) := by
  have hT := h.quotient (by simp [hp, Phase.code]) (by simp [hp, Phase.code])
  exact
    { sched := h.sched
      tick := h.tick
      phase := rfl
      legal := by simp [Phase.code]
      operand := fun _ => h.operand (by simp [hp, Phase.code])
      quotient := fun _ hne => absurd rfl hne
      digitC := fun _ => h.digitC (by simp [hp, Phase.code])
      digitB := fun _ => h.digitB (by simp [hp, Phase.code])
      digitA := fun _ => congrArg lowDigit hT }

/-- The user-level operation leaves nothing of the registers before it: on this hardware every operand is legal. -/
theorem Alike.operate (v : Value) :
    Alike (s1.withRegs (s1.regs.operate v)) (s2.withRegs (s2.regs.operate v)) := by
  have same : s1.withRegs (s1.regs.operate v) = s2.withRegs (s2.regs.operate v) := by
    simp [State.withRegs, operate_legal _ v (value_le v), h.sched, h.tick]
  exact same ▸ alike_refl (by simp [operate_PH])

/-- Clock edges with the same inputs select the same micro-operation in both states (41_sequencer.md R110). -/
theorem Alike.clock (i : Input Config.mrd) :
    ∃ r1 r2, s1.regs.clock i = some r1 ∧ s2.regs.clock i = some r2 ∧ Alike (s1.withRegs r1) (s2.withRegs r2) := by
  rw [clock_eq, clock_eq, ← h.phase]
  have idle {r1 r2 : Regs Config.mrd} (h1 : r1.PH = 0) (h2 : r2.PH = 0) : Alike (s1.withRegs r1) (s2.withRegs r2) :=
    alike_of_idle h1 h2 h.sched h.tick
  cases i.rst
  case true => exact ⟨_, _, rfl, rfl, idle rfl rfl⟩
  case false =>
    have code : s1.regs.PH = BitVec.ofNat 3 s1.regs.PH.toNat := by simp
    generalize hn : s1.regs.PH.toNat = n at code
    match n, hn ▸ h.legal with
    | 0, _ =>
      cases i.reqValid
      case true => exact ⟨_, _, rfl, rfl, h.accept i⟩
      case false => exact ⟨_, _, rfl, rfl, h⟩
    | 1, _ => exact ⟨_, _, rfl, rfl, h.stepC code⟩
    | 2, _ => exact ⟨_, _, rfl, rfl, h.stepB code⟩
    | 3, _ => exact ⟨_, _, rfl, rfl, h.stepA code⟩
    | 4, _ =>
      cases i.rspReady
      case true => exact ⟨_, _, rfl, rfl, idle rfl rfl⟩
      case false => exact ⟨_, _, rfl, rfl, h⟩

/-- The host's side moves on in the same way from states alike. -/
theorem Alike.advance {t1 t2 : State} (ht : Alike t1 t2) : Alike (t1.advanceFrom s1) (t2.advanceFrom s2) :=
  { ht with
    sched := h.nextSched
    tick := congrArg (· + 1) h.tick }

/-- Both states take the same kind of step: the user-level operation on the same operand, or an edge with the same
inputs. -/
theorem Alike.step : ∃ t1 t2, step s1 = .next t1 ∧ step s2 = .next t2 ∧ Alike t1 t2 := by
  by_cases hreq : ∃ v rest, s1.sched = .request v :: rest ∧ s1.regs.PH = 0
  · obtain ⟨v, rest, hs, hp⟩ := hreq
    exact ⟨_, _, step_of_operate hs hp, step_of_operate (h.sched ▸ hs) (h.phase ▸ hp), h.advance (h.operate v)⟩
  · obtain ⟨r1, r2, h1, h2, hr⟩ := h.clock s1.input
    have edge : ∀ v rest, s1.sched = .request v :: rest → s1.regs.PH ≠ 0 :=
      fun v rest hs hp => hreq ⟨v, rest, hs, hp⟩
    exact ⟨_, _, step_of_edge edge h1, step_of_edge (h.sched ▸ h.phase ▸ edge) (h.input ▸ h2), h.advance hr⟩

end

/-- Settles O58: `Alike` holds between IDLE states, hides nothing that a host can see, and is kept by a step because both
states take the same one and it reads only registers that agree. -/
theorem everyStepKeepsStatesAlike : Obligations.EveryStepKeepsStatesAlike :=
  ⟨fun _ _ => alike_of_idle, fun _ _ h => ⟨h.visible, h.accepted, h.delivered, h.step⟩⟩

/-! ### Runs from states alike -/

/-- What a host learns of a run is the same from states alike, by induction on the number of steps. -/
theorem Alike.run (n : Nat) {s1 s2 : State} (h : Alike s1 s2) :
    visibles n s1 = visibles n s2 ∧ accepts n s1 = accepts n s2 ∧ delivers n s1 = delivers n s2 := by
  induction n generalizing s1 s2 with
  | zero => exact ⟨rfl, rfl, rfl⟩
  | succ n ih =>
    obtain ⟨t1, t2, h1, h2, ht⟩ := h.step
    obtain ⟨hv, ha, hd⟩ := ih ht
    rw [visibles_succ n h1, visibles_succ n h2, accepts_succ n h1, accepts_succ n h2, delivers_succ n h1,
      delivers_succ n h2, hv, ha, hd, h.visible, h.accepted, h.delivered]
    exact ⟨rfl, rfl, rfl⟩

/-- Settles O52: two IDLE states with the same inputs to come are alike, and every run from states alike looks the same. -/
theorem staleRegistersAreNeverSeen : Obligations.StaleRegistersAreNeverSeen :=
  fun n _ _ h1 h2 hs ht => (alike_of_idle h1 h2 hs ht).run n

/-! ### Operand and status (10_state.md R22, R25) -/

/-- When a step is an accept (00_scope.md R15). -/
theorem accepted_eq_some_iff {s : State} {v : Value} :
    s.accepted = some v ↔
      s.regs.PH = 0 ∧ s.input.reqValid = true ∧ s.input.rst = false ∧ s.input.reqValue = v := by
  simp [State.accepted, reqReady_iff, and_assoc]

/-- When a step is no accept. -/
theorem accepted_eq_none_iff {s : State} :
    s.accepted = none ↔ (s.regs.PH = 0 → s.input.reqValid = true → s.input.rst = true) := by
  simp [State.accepted, reqReady_iff]

/-- An accept takes the operand into V and records OK, every operand of this hardware being legal (41_sequencer.md R101). -/
theorem accept_V_ST (r : Regs Config.mrd) (i : Input Config.mrd) :
    (r.accept i).V = i.reqValue ∧ (r.accept i).ST = 0 := by
  rw [accept_legal r i (value_le _)]
  exact ⟨rfl, rfl⟩

/-- A step accepts an operand and records it with status OK, or keeps V, and ST as well unless it is a reset
(41_sequencer.md R109, the columns of V and ST). -/
theorem step_accepts_or_keeps {s t : State} (h : step s = .next t) :
    (∃ v, s.accepted = some v ∧ t.regs.V = v ∧ t.regs.ST = 0) ∨
      (s.accepted = none ∧ t.regs.V = s.regs.V ∧ (s.input.rst = false → t.regs.ST = s.regs.ST)) := by
  obtain ⟨-, -, ⟨v, rest, hs, hready, ht⟩ | hclock⟩ := step_cases h
  · have hin := (selected_request hs).2
    refine .inl ⟨v, accepted_eq_some_iff.2 ⟨(reqReady_iff _).1 hready, ?_⟩, ?_⟩
    · simp [hin, requestInput]
    · rw [ht, operate_legal _ v (value_le v)]
      exact ⟨rfl, rfl⟩
  · rw [accepted_eq_none_iff]
    obtain ⟨hrst, hr⟩ | ⟨-, -, hvalid, hr⟩ | ⟨hrst, hp, hvalid, hr⟩ | ⟨-, hp, hr⟩ | ⟨-, hp, hr⟩ | ⟨-, hp, hr⟩ |
      ⟨-, hp, -, hr⟩ | ⟨-, hp, -, hr⟩ := clock_cases hclock
    · exact .inr ⟨fun _ _ => hrst, by simp [hr], fun hno => by simp [hrst] at hno⟩
    · exact .inr ⟨by simp [hvalid], by simp [hr]⟩
    · exact .inl ⟨_, accepted_eq_some_iff.2 ⟨hp, hvalid, hrst, rfl⟩, hr ▸ accept_V_ST _ _⟩
    all_goals exact .inr ⟨by simp [hp, Phase.code], by simp [hr]⟩

/-- Settles O40, by the two outcomes of `step_accepts_or_keeps`, which `State.accepted` tells apart. -/
theorem operandAndStatusLastUntilTheNextAccept : Obligations.OperandAndStatusLastUntilTheNextAccept := by
  intro s t h
  obtain ⟨v, hacc, hV, hST⟩ | ⟨hacc, hV, hST⟩ := step_accepts_or_keeps h
  · refine ⟨fun hno => by simp [hacc] at hno, fun w hw => ?_⟩
    obtain rfl : v = w := by simpa [hacc] using hw
    exact ⟨hV, hST⟩
  · exact ⟨fun _ => ⟨hV, hST⟩, fun w hw => by simp [hacc] at hw⟩

/-! ### The state after reset -/

/-- Settles O2: PH and ST are fields of `State.reset`, and in phase IDLE the payload is hidden. -/
theorem afterResetPhaseIsIdleAndStatusOk : Obligations.AfterResetPhaseIsIdleAndStatusOk :=
  ⟨rfl, rfl, rfl⟩

end Sys2Proof.Machine

namespace Sys2Proof.Machine

section
variable {cfg : Config}

/-! ### The outputs by phase (20_memory.md R43) -/

/-- PH holds one phase, so the block never shows both handshake signals. -/
theorem rspValid_of_reqReady {r : Regs cfg} (h : r.reqReady = true) : r.rspValid = false :=
  rspValid_of_ne (by simp [(reqReady_iff r).1 h])

theorem reqReady_of_rspValid {r : Regs cfg} (h : r.rspValid = true) : r.reqReady = false :=
  reqReady_of_ne (by simp [(rspValid_iff r).1 h])

theorem visible_of_not_rspValid {r : Regs cfg} (h : r.rspValid = false) : r.visible = (r.reqReady, none) := by
  simp [Regs.visible, h]

theorem visible_of_rspValid {r : Regs cfg} (h : r.rspValid = true) : r.visible = (false, some r.payload) := by
  simp [Regs.visible, h, reqReady_of_rspValid h]

/-! ### The phase invariant (41_sequencer.md R112): how each phase is entered -/

/-- In phase IDLE nothing is in flight, so the invariant asks for a status only. -/
theorem phaseInvariant_of_idle {r : Regs cfg} (hp : r.PH = Phase.idle.code)
    (hs : r.ST = Status.ok.code ∨ r.ST = Status.outOfRange.code) : PhaseInvariant r where
  phase := by simp [hp, Phase.code]
  status := hs
  stepC h := absurd (hp.symm.trans h) (by decide)
  stepB h := absurd (hp.symm.trans h) (by decide)
  stepA h := absurd (hp.symm.trans h) (by decide)
  doneOk h := absurd (hp.symm.trans h) (by decide)
  doneError h := absurd (hp.symm.trans h) (by decide)

/-- Phase DONE with status OK, entered from STEP_A and by the user-level operation. -/
theorem phaseInvariant_of_done {r : Regs cfg} (hp : r.PH = Phase.done.code) (hs : r.ST = Status.ok.code)
    (hV : r.V.toNat ≤ valueMax) (hC : r.DC.toNat = r.V.toNat % cfg.radix)
    (hB : r.DB.toNat = r.V.toNat / cfg.radix % cfg.radix) (hA : r.DA.toNat = r.V.toNat / cfg.radix ^ 2)
    (hT : r.T.toNat = r.V.toNat / cfg.radix ^ 2) : PhaseInvariant r where
  phase := by simp [hp, Phase.code]
  status := .inl hs
  stepC h := absurd (hp.symm.trans h) (by decide)
  stepB h := absurd (hp.symm.trans h) (by decide)
  stepA h := absurd (hp.symm.trans h) (by decide)
  doneOk _ _ := ⟨hV, hC, hB, hA, hT⟩
  doneError _ h := absurd (hs.symm.trans h) (by decide)

/-- Phase DONE by the exception: the offending operand whole, and three poisoned digits (60_exceptions.md R144). -/
theorem phaseInvariant_raiseOutOfRange (r : Regs cfg) {v : BitVec cfg.valw} (hv : valueMax < v.toNat) :
    PhaseInvariant (r.raiseOutOfRange v) where
  phase := by simp [Phase.code]
  status := .inr rfl
  stepC h := absurd h (by simp [Phase.code])
  stepB h := absurd h (by simp [Phase.code])
  stepA h := absurd h (by simp [Phase.code])
  doneOk _ h := absurd h (by simp [Status.code])
  doneError _ _ := ⟨hv, rfl, rfl, rfl⟩

/-- ACCEPT starts an operation on either path (41_sequencer.md R101). -/
theorem phaseInvariant_accept (r : Regs cfg) (i : Input cfg) : PhaseInvariant (r.accept i) := by
  obtain hv | hv := Nat.lt_or_ge valueMax i.reqValue.toNat
  · exact accept_illegal r i hv ▸ phaseInvariant_raiseOutOfRange r hv
  · rw [accept_legal r i hv]
    exact
      { phase := by simp [Phase.code]
        status := .inl rfl
        stepC := fun _ => ⟨hv, rfl, rfl⟩
        stepB := fun h => absurd h (by simp [Phase.code])
        stepA := fun h => absurd h (by simp [Phase.code])
        doneOk := fun h => absurd h (by simp [Phase.code])
        doneError := fun h => absurd h (by simp [Phase.code]) }

/-- The user-level operation leaves a response present on either path (40_decompose.md R80). -/
theorem phaseInvariant_operate (r : Regs cfg) (v : BitVec cfg.valw) : PhaseInvariant (r.operate v) := by
  obtain hv | hv := Nat.lt_or_ge valueMax v.toNat
  · exact operate_illegal r v hv ▸ phaseInvariant_raiseOutOfRange r hv
  · rw [operate_legal r v hv]
    exact phaseInvariant_of_done rfl rfl hv (toNat_closedC _) (toNat_closedB _) (toNat_closedA _ hv)
      (toNat_closedA_valw v)

/-! ### The phase invariant is kept by every micro-operation, clock edge and step -/

/-- The remainder and the quotient of the operand itself (41_sequencer.md R102). -/
theorem phaseInvariant_stepC {r : Regs cfg} (h : PhaseInvariant r) (hp : r.PH = Phase.stepC.code) :
    PhaseInvariant r.stepC := by
  obtain ⟨hV, hST, hT⟩ := h.stepC hp
  exact
    { phase := by simp [Phase.code]
      status := .inl hST
      stepC := fun h => absurd h (by simp [Phase.code])
      stepB := fun _ => ⟨hV, hST, by simp [hT], by simp [hT]⟩
      stepA := fun h => absurd h (by simp [Phase.code])
      doneOk := fun h => absurd h (by simp [Phase.code])
      doneError := fun h => absurd h (by simp [Phase.code]) }

/-- The remainder and the quotient of the first quotient (41_sequencer.md R103). -/
theorem phaseInvariant_stepB {r : Regs cfg} (h : PhaseInvariant r) (hp : r.PH = Phase.stepB.code) :
    PhaseInvariant r.stepB := by
  obtain ⟨hV, hST, hC, hT⟩ := h.stepB hp
  exact
    { phase := by simp [Phase.code]
      status := .inl hST
      stepC := fun h => absurd h (by simp [Phase.code])
      stepB := fun h => absurd h (by simp [Phase.code])
      stepA := fun _ => ⟨hV, hST, hC, by simp [hT], by simp [hT, div_div_radix]⟩
      doneOk := fun h => absurd h (by simp [Phase.code])
      doneError := fun h => absurd h (by simp [Phase.code]) }

/-- The second quotient fits a digit register, so the move of STEP_A loses no bit (41_sequencer.md R104,
40_decompose.md R89). -/
theorem phaseInvariant_stepA {r : Regs cfg} (h : PhaseInvariant r) (hp : r.PH = Phase.stepA.code) :
    PhaseInvariant r.stepA := by
  obtain ⟨hV, hST, hC, hB, hT⟩ := h.stepA hp
  have fits : r.T.toNat < 2 ^ cfg.digw := by
    rw [hT]
    exact (closedA_lt_radix _ hV).trans (radix_lt cfg)
  exact phaseInvariant_of_done rfl hST hV hC hB ((lowDigit_toNat r.T fits).trans hT) hT

/-- Every clock edge keeps the phase invariant, the error path included (41_sequencer.md R112). -/
theorem clock_keeps_phaseInvariant {r r' : Regs cfg} {i : Input cfg} (h : PhaseInvariant r)
    (hclock : r.clock i = some r') : PhaseInvariant r' := by
  obtain ⟨-, rfl⟩ | ⟨-, -, -, rfl⟩ | ⟨-, -, -, rfl⟩ | ⟨-, hp, rfl⟩ | ⟨-, hp, rfl⟩ | ⟨-, hp, rfl⟩ |
    ⟨-, -, -, rfl⟩ | ⟨-, -, -, rfl⟩ := clock_cases hclock
  · exact phaseInvariant_of_idle rfl (.inl rfl)
  · exact h
  · exact phaseInvariant_accept r i
  · exact phaseInvariant_stepC h hp
  · exact phaseInvariant_stepB h hp
  · exact phaseInvariant_stepA h hp
  · exact h
  · exact phaseInvariant_of_idle rfl h.status

/-- Every step keeps the phase invariant, at both levels of the operation map. -/
theorem step_keeps_phaseInvariant {s t : State} (h : PhaseInvariant s.regs) (hstep : step s = .next t) :
    PhaseInvariant t.regs := by
  obtain ⟨-, -, ⟨v, -, -, -, ht⟩ | hclock⟩ := step_cases hstep
  · exact ht ▸ phaseInvariant_operate s.regs v
  · exact clock_keeps_phaseInvariant h hclock

/-- What the invariant is for: in phase DONE the payload is the response of DECOMP to the operand, whichever status it
has (40_decompose.md R80). -/
theorem payload_eq_respond {r : Regs cfg} (h : PhaseInvariant r) (hp : r.PH = Phase.done.code) :
    r.payload = respond r.V := by
  obtain hST | hST := h.status
  · obtain ⟨hV, hC, hB, hA, -⟩ := h.doneOk hp hST
    rw [respond_legal r.V hV, Regs.payload, hST,
      BitVec.eq_of_toNat_eq (hA.trans (toNat_closedA r.V.toNat hV).symm),
      BitVec.eq_of_toNat_eq (hB.trans (toNat_closedB r.V.toNat).symm),
      BitVec.eq_of_toNat_eq (hC.trans (toNat_closedC r.V.toNat).symm)]
    rfl
  · obtain ⟨hV, hA, hB, hC⟩ := h.doneError hp hST
    simp [respond, outOfRange_true hV, Regs.payload, hST, hA, hB, hC]

end

/-- Settles O37: each output is a test of PH or a copy of a register, and PH has one value. -/
theorem outputsAreFunctionsOfTheState : Obligations.OutputsAreFunctionsOfTheState := by
  intro cfg r
  have exclusive : ¬ (r.reqReady = true ∧ r.rspValid = true) := by
    rintro ⟨hready, hvalid⟩
    simp [rspValid_of_reqReady hready] at hvalid
  exact ⟨reqReady_iff r, rspValid_iff r, exclusive, rfl, visible_of_not_rspValid, visible_of_rspValid⟩

/-! ### What is accepted, delivered and owed, by phase -/

theorem owed_of_idle {s : State} (hp : s.regs.PH = Phase.idle.code) : s.owed = [] :=
  if_pos ((reqReady_iff s.regs).2 hp)

theorem owed_of_busy {s : State} (hp : s.regs.PH ≠ Phase.idle.code) : s.owed = [respond s.regs.V] := by
  simp [State.owed, reqReady_of_ne hp]

theorem owed_length_le_one (s : State) : s.owed.length ≤ 1 := by
  unfold State.owed
  split <;> simp

theorem accepted_of_busy {s : State} (hp : s.regs.PH ≠ Phase.idle.code) : s.accepted = none :=
  accepted_eq_none_iff.2 fun h => absurd h hp

/-- When a step is no deliver. -/
theorem delivered_eq_none_iff {s : State} :
    s.delivered = none ↔ (s.regs.PH = Phase.done.code → s.input.rspReady = true → s.input.rst = true) := by
  simp [State.delivered, rspValid_iff, Phase.code]

theorem delivered_of_not_done {s : State} (hp : s.regs.PH ≠ Phase.done.code) : s.delivered = none :=
  delivered_eq_none_iff.2 fun h => absurd h hp

theorem delivered_of_done {s : State} (hp : s.regs.PH = Phase.done.code) (hready : s.input.rspReady = true)
    (hrst : s.input.rst = false) : s.delivered = some s.regs.payload := by
  simp [State.delivered, (rspValid_iff s.regs).2 hp, hready, hrst]

/-- A reset accepts and delivers nothing (60_exceptions.md R147). -/
theorem no_transfer_of_rst {s : State} (h : s.input.rst = true) : s.accepted = none ∧ s.delivered = none :=
  ⟨accepted_eq_none_iff.2 fun _ _ => h, delivered_eq_none_iff.2 fun _ _ => h⟩

/-- A reset leaves nothing owed (70_reset_and_hazards.md R166). -/
theorem owed_of_step_rst {s t : State} (h : s.input.rst = true) (hstep : step s = .next t) : t.owed = [] := by
  rw [step_of_rst h] at hstep
  cases hstep
  exact owed_of_idle rfl

/-! ### The balance of one step without a reset (20_memory.md R49) -/

/-- What is owed and what is accepted at a step are, in order, what is delivered at it and what is still owed. -/
def Balanced (s t : State) : Prop :=
  s.owed ++ s.accepted.toList.map respond = s.delivered.toList ++ t.owed

/-- An accept in phase IDLE: the new debt is the response to the operand taken. -/
theorem balanced_of_accept {s t : State} {v : Value} (hacc : s.accepted = some v)
    (ht : t.regs.PH ≠ Phase.idle.code) (hV : t.regs.V = v) : Balanced s t := by
  have hp : s.regs.PH = Phase.idle.code := (accepted_eq_some_iff.1 hacc).1
  have hdel := delivered_of_not_done (s := s) (by simp [hp, Phase.code])
  simp [Balanced, owed_of_idle hp, hacc, hdel, owed_of_busy ht, hV]

/-- A step of the operation in flight that delivers nothing and keeps V: the debt stays. -/
theorem balanced_of_busy {s t : State} (hs : s.regs.PH ≠ Phase.idle.code) (hdel : s.delivered = none)
    (ht : t.regs.PH ≠ Phase.idle.code) (hV : t.regs.V = s.regs.V) : Balanced s t := by
  simp [Balanced, owed_of_busy hs, accepted_of_busy hs, hdel, owed_of_busy ht, hV]

/-- A compute phase neither is ready for a request nor has its response present. -/
theorem balanced_of_compute {s t : State} (hs : s.regs.PH ≠ Phase.idle.code ∧ s.regs.PH ≠ Phase.done.code)
    (ht : t.regs.PH ≠ Phase.idle.code ∧ t.regs.V = s.regs.V) : Balanced s t :=
  balanced_of_busy hs.1 (delivered_of_not_done hs.2) ht.1 ht.2

/-- A wait in phase IDLE: nothing is owed before or after. -/
theorem balanced_of_wait {s t : State} (hp : s.regs.PH = Phase.idle.code) (hacc : s.accepted = none)
    (ht : t.regs.PH = Phase.idle.code) : Balanced s t := by
  have hdel := delivered_of_not_done (s := s) (by simp [hp, Phase.code])
  simp [Balanced, owed_of_idle hp, hacc, hdel, owed_of_idle ht]

/-- A deliver pays the debt: the payload is the response owed, by the phase invariant. -/
theorem balanced_of_deliver {s t : State} (hinv : PhaseInvariant s.regs) (hp : s.regs.PH = Phase.done.code)
    (hdel : s.delivered = some s.regs.payload) (ht : t.regs.PH = Phase.idle.code) : Balanced s t := by
  have hs : s.regs.PH ≠ Phase.idle.code := by simp [hp, Phase.code]
  simp [Balanced, owed_of_busy hs, accepted_of_busy hs, hdel, payload_eq_respond hinv hp, owed_of_idle ht]

/-- Every step without a reset is one of these four: an accept at either level, a wait, a deliver, or an edge of the
operation in flight. -/
theorem step_balanced {s t : State} (hinv : PhaseInvariant s.regs) (hstep : step s = .next t)
    (hrst : s.input.rst = false) : Balanced s t := by
  obtain ⟨-, -, ⟨v, rest, hs, hready, ht⟩ | hclock⟩ := step_cases hstep
  · have hin := (selected_request hs).2
    have hacc : s.accepted = some v := by simp [State.accepted, hready, hin, requestInput]
    exact balanced_of_accept hacc (by simp [ht, operate_PH, Phase.code]) (by simp [ht, operate_legal _ v (value_le v)])
  · obtain ⟨hr, -⟩ | ⟨-, hp, hvalid, ht⟩ | ⟨-, hp, hvalid, ht⟩ | ⟨-, hp, ht⟩ | ⟨-, hp, ht⟩ | ⟨-, hp, ht⟩ |
      ⟨-, hp, hready, ht⟩ | ⟨-, hp, hready, ht⟩ := clock_cases hclock
    · simp [hrst] at hr
    · exact balanced_of_wait hp (accepted_eq_none_iff.2 (by simp [hvalid])) (ht ▸ hp)
    · rw [accept_legal _ _ (value_le _)] at ht
      exact balanced_of_accept (accepted_eq_some_iff.2 ⟨hp, hvalid, hrst, rfl⟩) (by simp [ht, Phase.code]) (by simp [ht])
    · exact balanced_of_compute (by simp [hp, Phase.code]) (by simp [ht, Phase.code])
    · exact balanced_of_compute (by simp [hp, Phase.code]) (by simp [ht, Phase.code])
    · exact balanced_of_compute (by simp [hp, Phase.code]) (by simp [ht, Phase.code])
    · exact balanced_of_busy (by simp [hp, Phase.code]) (delivered_eq_none_iff.2 (by simp [hready]))
        (by simp [ht, hp, Phase.code]) (by simp [ht])
    · exact balanced_of_deliver hinv hp (delivered_of_done hp hready hrst) (by simp [ht])

/-- Settles O57: a step without a reset is balanced, and a reset transfers nothing and clears the debt, so that what is
left is a sublist either way. -/
theorem everyStepBalancesAcceptsAndResponses : Obligations.EveryStepBalancesAcceptsAndResponses := by
  intro s t hinv hstep
  have reset (hrst : s.input.rst = true) : s.accepted = none ∧ s.delivered = none ∧ t.owed = [] :=
    ⟨(no_transfer_of_rst hrst).1, (no_transfer_of_rst hrst).2, owed_of_step_rst hrst hstep⟩
  refine ⟨step_balanced hinv hstep, reset, ?_, owed_length_le_one t⟩
  cases hrst : s.input.rst
  case false => exact (step_balanced hinv hstep hrst) ▸ List.Sublist.refl _
  case true =>
    obtain ⟨-, hdel, howed⟩ := reset hrst
    simp [hdel, howed]

/-- Settles O49, by induction on the number of steps: the debt that the first step leaves is the one the rest of the run
starts with. -/
theorem responsesAnswerTheAcceptsInOrder : Obligations.ResponsesAnswerTheAcceptsInOrder := by
  intro n
  induction n with
  | zero => exact fun s _ _ => ⟨s, rfl, by simp [accepts, delivers], owed_length_le_one s⟩
  | succ n ih =>
    intro s hinv hno
    obtain ⟨u, hstep⟩ := step_legal s hinv.phase
    obtain ⟨hrst, hno⟩ := (noReset_succ n hstep).1 hno
    obtain ⟨t, hrun, hrest, hlen⟩ := ih u (step_keeps_phaseInvariant hinv hstep) hno
    have hfirst : s.owed ++ s.accepted.toList.map respond = s.delivered.toList ++ u.owed :=
      step_balanced hinv hstep hrst
    refine ⟨t, (run_succ n hstep).trans hrun, ?_, hlen⟩
    calc s.owed ++ (accepts (n + 1) s).map respond
        = s.owed ++ s.accepted.toList.map respond ++ (accepts n u).map respond := by
          rw [accepts_succ n hstep, List.map_append, List.append_assoc]
      _ = s.delivered.toList ++ (u.owed ++ (accepts n u).map respond) := by rw [hfirst, List.append_assoc]
      _ = delivers (n + 1) s ++ t.owed := by rw [hrest, delivers_succ n hstep, List.append_assoc]

end Sys2Proof.Machine

namespace Sys2Proof.Machine

/-! ### Words of the operation map (30_encoding.md R61, R69, R73) -/

/-- The four bytes that the encoder writes for a Value are read back as its request word, whatever the Value. -/
theorem decodeBytes_bytesOf_toNat (v : Value) : decodeBytes (bytesOf 4 v.toNat) = .ok (.decomp v) := by
  rw [decodeBytes_bytesOf4 v.toNat v.isLt, BitVec.ofNat_toNat, BitVec.setWidth_eq]

/-- Decoding undoes encoding for every instruction, a malformed literal among them. -/
theorem decodeBytes_encode (i : Instr) : decodeBytes (encode i) = .ok (expand i) := by
  cases i with
  | decomp v => exact decodeBytes_bytesOf_toNat v
  | decompIp o0 o1 o2 o3 => exact decodeBytes_bytesOf_toNat (ipToValue o0 o1 o2 o3)
  | _ => rfl

/-- Only a literal stands for another instruction. -/
theorem expand_eq_self {i : Instr} (h : ∀ o0 o1 o2 o3, i ≠ .decompIp o0 o1 o2 o3) : expand i = i := by
  cases i with
  | decompIp o0 o1 o2 o3 => exact absurd rfl (h o0 o1 o2 o3)
  | _ => rfl

/-- Settles O16: a request word's four bytes join to the Value they were cut from, and each select word is decoded as the
row it is the match of. -/
theorem decodeOfEncodeIsTheInstruction : Obligations.DecodeOfEncodeIsTheInstruction :=
  ⟨fun i _ => decodeBytes_encode i, fun _ => expand_eq_self⟩

/-- One byte is a select word when its bits 7:6 are zero. -/
theorem decodeBytes_one (b : Byte) :
    decodeBytes [b] =
      if b.toNat < 64 then .ok (decodeSel (b.extractLsb' 0 6)) else .error .selectWordTooWide := by
  rw [decodeBytes, BitVec.setWidth_eq_extractLsb' (by decide)]

/-- Four bytes are the request word they join to. -/
theorem decodeBytes_four (b0 b1 b2 b3 : Byte) :
    decodeBytes [b0, b1, b2, b3] = .ok (.decomp (b3 ++ b2 ++ b1 ++ b0)) := rfl

/-- No other number of bytes is a word. -/
theorem decodeBytes_of_length {bs : List Byte} (h1 : bs.length ≠ 1) (h4 : bs.length ≠ 4) :
    decodeBytes bs = .error .noSuchLength := by
  unfold decodeBytes
  split
  · exact absurd rfl h1
  · exact absurd rfl h4
  · rfl

/-- The well-formedness check has only literals to refuse, and no select word decodes to a literal. -/
theorem decodeSel_wf (w : SelWord) : (decodeSel w).wf = true := by
  have hlit := (decodeSel_not_user w).2
  generalize decodeSel w = i at hlit
  cases i with
  | decompIp o0 o1 o2 o3 => exact absurd rfl (hlit o0 o1 o2 o3)
  | _ => rfl

/-- Whatever decodes is well-formed. -/
theorem wf_of_decodeBytes {bs : List Byte} {i : Instr} (h : decodeBytes bs = .ok i) : i.wf = true := by
  unfold decodeBytes at h
  split at h
  · split at h
    · cases h
      exact decodeSel_wf _
    · cases h
  · cases h
    rfl
  · cases h

/-- Settles O17: one clause for each branch of the decoder, the four bytes read as a number by `toNat_join4`. -/
theorem onlySelectAndRequestWordsDecode : Obligations.OnlySelectAndRequestWordsDecode :=
  ⟨decodeBytes_one, fun b0 b1 b2 b3 => ⟨_, decodeBytes_four b0 b1 b2 b3, toNat_join4 b0 b1 b2 b3⟩,
    fun _ => decodeBytes_of_length, fun _ _ => wf_of_decodeBytes⟩

/-- The rows are disjoint and cover every select word: filtering the table by a word leaves the decoder's answer alone. -/
theorem filter_selTable (w : SelWord) :
    (selTable.filter fun row => row.covers w).map (fun row => row.instr) = [decodeSel w] := by
  revert w
  decide

/-- The decoder answers with the micro-operation of any row that a word falls under. -/
theorem decodeSel_of_mask {w mask want : SelWord} {i : Instr} (hrow : ⟨mask, want, i⟩ ∈ selTable)
    (h : w &&& mask = want) : decodeSel w = i := by
  have hmem : i ∈ (selTable.filter fun row => row.covers w).map (fun row => row.instr) :=
    List.mem_map.2 ⟨_, List.mem_filter.2 ⟨hrow, beq_iff_eq.2 h⟩, rfl⟩
  rw [filter_selTable] at hmem
  exact (List.mem_singleton.1 hmem).symm

/-- Settles O15: the partition `filter_selTable`, and what it says of each of the eleven rows. -/
theorem operationMapIsTheTable : Obligations.OperationMapIsTheTable := by
  refine ⟨fun w => ?_, filter_selTable, fun _ => rfl⟩
  refine ⟨?_, ?_, ?_, ?_, ?_, ?_, ?_, ?_, ?_, ?_, ?_⟩ <;> exact decodeSel_of_mask (by decide)

/-- Settles O18: each word is decoded by evaluation, a request word's bytes among them. -/
theorem knownWordsDecode : Obligations.KnownWordsDecode := by
  unfold Obligations.KnownWordsDecode
  decide

/-! ### DECOMP.IP (30_encoding.md R73) -/

/-- A well-formed literal is the DECOMP it expands to. -/
theorem exec_decompIp_of_wf {o0 o1 o2 o3 : Nat} (h : (Instr.decompIp o0 o1 o2 o3).wf = true) (s : State) :
    exec (.decompIp o0 o1 o2 o3) s = exec (.decomp (ipToValue o0 o1 o2 o3)) s :=
  if_pos h

/-- Any other literal is refused, whatever the state. -/
theorem exec_decompIp_of_not_wf {o0 o1 o2 o3 : Nat} (h : (Instr.decompIp o0 o1 o2 o3).wf = false) (s : State) :
    exec (.decompIp o0 o1 o2 o3) s = .refused .malformedLiteral :=
  if_neg (by simpa [Instr.wf] using h)

theorem decompIp_wf_iff (o0 o1 o2 o3 : Nat) :
    (Instr.decompIp o0 o1 o2 o3).wf = true ↔ o0 ≤ 255 ∧ o1 ≤ 255 ∧ o2 ≤ 255 ∧ o3 ≤ 255 := by
  simp [Instr.wf, octetOk, and_assoc]

/-- What a DECOMP leaves in the registers of this hardware but T, as numbers (40_decompose.md R80). -/
theorem operate_fields (r : Regs Config.mrd) (v : Value) :
    (r.operate v).V = v ∧ (r.operate v).PH = 4 ∧ (r.operate v).ST = 0 ∧ (r.operate v).DA.toNat = v.toNat / 2650384 ∧
      (r.operate v).DB.toNat = v.toNat / 1628 % 1628 ∧ (r.operate v).DC.toNat = v.toNat % 1628 := by
  rw [operate_legal r v (value_le v)]
  exact ⟨rfl, rfl, rfl, toNat_closedA _ (value_le v), toNat_closedB _, toNat_closedC _⟩

/-- Settles O14: on a well-formed literal DECOMP.IP is the DECOMP of `ipToValue`, whose operation in phase IDLE is
`Regs.operate`. -/
theorem decompIpIsDecompOfTheComposedValue : Obligations.DecompIpIsDecompOfTheComposedValue := by
  constructor
  · intro o0 o1 o2 o3 s h0 h1 h2 h3
    have hexec := exec_decompIp_of_wf ((decompIp_wf_iff o0 o1 o2 o3).2 ⟨h0, h1, h2, h3⟩) s
    have hvalue := ipToValue_toNat o0 o1 o2 o3 h0 h1 h2 h3
    refine ⟨hexec, hvalue, fun hp => ⟨_, hexec.trans (exec_decomp_idle _ s hp), ?_⟩⟩
    obtain ⟨hV, hrest⟩ := operate_fields s.regs (ipToValue o0 o1 o2 o3)
    rw [withRegs_regs, hV]
    exact ⟨hvalue, hrest⟩
  · intro o0 o1 o2 o3 s h
    refine exec_decompIp_of_not_wf (Bool.eq_false_iff.2 fun hwf => ?_) s
    have hparts := (decompIp_wf_iff o0 o1 o2 o3).1 hwf
    omega

/-! ### The script DECOMP v, TAKE (30_encoding.md R72) -/

section
variable {cfg : Config}

/-- A compute phase goes on to the next phase at every edge without a reset, and keeps the operand (41_sequencer.md R110,
R115). -/
theorem clock_of_compute {r : Regs cfg} {i : Input cfg} (hrst : i.rst = false) (hlo : 1 ≤ r.PH.toNat)
    (hhi : r.PH.toNat ≤ 3) : ∃ r', r.clock i = some r' ∧ r'.PH.toNat = r.PH.toNat + 1 ∧ r'.V = r.V := by
  rw [clock_eq, hrst]
  generalize r.PH.toNat = n at hlo hhi
  match n with
  | 1 => exact ⟨_, rfl, rfl, rfl⟩
  | 2 => exact ⟨_, rfl, rfl, rfl⟩
  | 3 => exact ⟨_, rfl, rfl, rfl⟩

/-- A DELIVER edge. -/
theorem clock_of_deliver {r : Regs cfg} {i : Input cfg} (hrst : i.rst = false) (hready : i.rspReady = true)
    (hp : r.PH = 4) : r.clock i = some r.deliver := by
  simp [clock_eq, hrst, hready, hp]

/-- An ACCEPT edge. -/
theorem clock_of_accept {r : Regs cfg} {i : Input cfg} (hrst : i.rst = false) (hvalid : i.reqValid = true)
    (hp : r.PH = 0) : r.clock i = some (r.accept i) := by
  simp [clock_eq, hrst, hvalid, hp]

end

theorem input_of_present {s : State} {v : Value} {rest : List Stimulus} (hs : s.sched = .present v :: rest) :
    s.input = requestInput v := by
  simp [State.input, hs]

theorem input_of_take {s : State} {rest : List Stimulus} (hs : s.sched = .take :: rest) : s.input = takeInput := by
  simp [State.input, hs]

/-- The statement `DECOMP v` in phase IDLE is one step, the accept of `v`. The phase invariant holds after it, whatever
stood in the registers before. -/
theorem step_of_present {s : State} {v : Value} {rest : List Stimulus} (hs : s.sched = .present v :: rest)
    (hp : s.regs.PH = 0) :
    ∃ t, step s = .next t ∧ PhaseInvariant t.regs ∧ t.regs.PH = 1 ∧ t.regs.V = v ∧ t.sched = rest ∧
      t.tick = s.tick + 1 ∧ s.accepted = some v ∧ s.delivered = none := by
  have hin := input_of_present hs
  have hclock : s.regs.clock s.input = some (s.regs.accept (requestInput v)) := by
    rw [hin, clock_of_accept rfl rfl hp]
  have hPH : (s.regs.accept (requestInput v)).PH = 1 := by rw [accept_legal _ _ (value_le _)]; rfl
  refine ⟨_, step_of_clock (by simp [hs]) hclock, phaseInvariant_accept _ _, hPH, (accept_V_ST _ _).1, ?_, rfl, ?_, ?_⟩
  · simp [State.nextSched, hs, (reqReady_iff s.regs).2 hp]
  · exact accepted_eq_some_iff.2 (by simp [hp, hin, requestInput])
  · exact delivered_of_not_done (by simp [hp, Phase.code])

/-- The statement TAKE stays in the schedule through a compute phase. -/
theorem step_of_take_compute {s : State} {rest : List Stimulus} (hs : s.sched = .take :: rest)
    (hlo : 1 ≤ s.regs.PH.toNat) (hhi : s.regs.PH.toNat ≤ 3) :
    ∃ t, step s = .next t ∧ t.regs.PH.toNat = s.regs.PH.toNat + 1 ∧ t.regs.V = s.regs.V ∧ t.sched = .take :: rest ∧
      t.tick = s.tick + 1 ∧ s.accepted = none ∧ s.delivered = none := by
  have hidle : s.regs.PH ≠ 0 := fun hp => by simp [hp] at hlo
  have hdone : s.regs.PH ≠ 4 := fun hp => by simp [hp] at hhi
  obtain ⟨r, hclock, hPH, hV⟩ := clock_of_compute (i := s.input) (by simp [input_of_take hs, takeInput]) hlo hhi
  refine ⟨_, step_of_clock (by simp [hs]) hclock, hPH, hV, ?_, rfl, accepted_of_busy hidle, delivered_of_not_done hdone⟩
  simp [State.nextSched, hs, rspValid_of_ne hdone]

/-- The statement TAKE in phase DONE is one step, the deliver. -/
theorem step_of_take_done {s : State} {rest : List Stimulus} (hs : s.sched = .take :: rest) (hp : s.regs.PH = 4) :
    ∃ t, step s = .next t ∧ t.regs.PH = 0 ∧ t.sched = rest ∧ t.tick = s.tick + 1 ∧ s.accepted = none ∧
      s.delivered = some s.regs.payload := by
  have hin := input_of_take hs
  have hclock : s.regs.clock s.input = some s.regs.deliver := by rw [hin, clock_of_deliver rfl rfl hp]
  refine ⟨_, step_of_clock (by simp [hs]) hclock, rfl, ?_, rfl, ?_, ?_⟩
  · simp [State.nextSched, hs, (rspValid_iff s.regs).2 hp]
  · exact accepted_of_busy (by simp [hp, Phase.code])
  · exact delivered_of_done hp (by simp [hin, takeInput]) (by simp [hin, takeInput])

/-- TAKE waits for the response and then takes it: `n` edges of the compute phases, and the deliver. -/
theorem run_of_take (n : Nat) {s : State} {rest : List Stimulus} (hinv : PhaseInvariant s.regs)
    (hlo : 1 ≤ s.regs.PH.toNat) (hn : s.regs.PH.toNat + n = 4) (hs : s.sched = .take :: rest) :
    ∃ t, Host.Core.run Sys2Proof.core (n + 1) s = .next t ∧ t.regs.PH = 0 ∧ t.sched = rest ∧
      t.tick = s.tick + (n + 1) ∧ accepts (n + 1) s = [] ∧ delivers (n + 1) s = [respond s.regs.V] := by
  induction n generalizing s with
  | zero =>
    have hp : s.regs.PH = 4 := BitVec.eq_of_toNat_eq hn
    obtain ⟨t, hstep, ht, hrest, htime, hacc, hdel⟩ := step_of_take_done hs hp
    refine ⟨t, run_succ 0 hstep, ht, hrest, htime, ?_, ?_⟩
    · rw [accepts_succ 0 hstep, hacc]
      rfl
    · rw [delivers_succ 0 hstep, hdel, payload_eq_respond hinv hp]
      rfl
  | succ n ih =>
    obtain ⟨u, hstep, hPH, hV, hsched, htick, hacc, hdel⟩ := step_of_take_compute hs hlo (by omega)
    obtain ⟨t, hrun, ht, hrest, htime, ha, hd⟩ :=
      ih (step_keeps_phaseInvariant hinv hstep) (by omega) (by omega) hsched
    refine ⟨t, (run_succ _ hstep).trans hrun, ht, hrest, by omega, ?_, ?_⟩
    · simp [accepts_succ (n + 1) hstep, hacc, ha]
    · rw [delivers_succ (n + 1) hstep, hdel, hd, hV]
      rfl

/-- Settles O48: the accept takes `v` and sets up the phase invariant, and from there TAKE runs three compute phases and
the deliver. -/
theorem decompThenTakeDeliversTheResponse : Obligations.DecompThenTakeDeliversTheResponse := by
  intro s v rest hp hs
  obtain ⟨u, hstep, hinv, hPH, hV, hsched, htick, hacc, hdel⟩ := step_of_present hs hp
  obtain ⟨t, hrun, ht, hrest, htime, ha, hd⟩ := run_of_take 3 hinv (by simp [hPH]) (by simp [hPH]) hsched
  refine ⟨t, (run_succ 4 hstep).trans hrun, ht, hrest, by omega, ?_, ?_⟩
  · rw [accepts_succ 4 hstep, hacc, ha]
    rfl
  · rw [delivers_succ 4 hstep, hdel, hd, hV]
    rfl

/-! ### Response word, input word, poison (30_encoding.md R62, R66, R74) -/

/-- Settles O34: all ones is at least any legal radix, and Recompose looks at component a first. -/
theorem poisonIsNoDigit : Obligations.PoisonIsNoDigit := by
  have hpoison : ∀ cfg : Config, cfg.radix ≤ cfg.poison.toNat := by
    intro cfg
    have hlt := radix_lt cfg
    rw [Config.poison, BitVec.toNat_allOnes]
    omega
  exact ⟨fun cfg => ⟨hpoison cfg, if_pos (hpoison cfg)⟩, rfl⟩

section
variable {cfg : Config}

/-- The digit word is the low end of the response word. -/
theorem packResponse_digitWord (r : Response cfg) :
    (packResponse r).extractLsb' 0 (cfg.digw + cfg.digw + cfg.digw) = digitWord r :=
  BitVec.extractLsb'_append_eq_right

/-- A field that lies within the digit word is the same field of the digit word. -/
theorem packResponse_digit (r : Response cfg) {start len : Nat} (h : start + len ≤ cfg.digw + cfg.digw + cfg.digw) :
    (packResponse r).extractLsb' start len = (digitWord r).extractLsb' start len :=
  BitVec.extractLsb'_append_eq_of_add_le h

/-- A field that lies above the digit word is one of status and value. -/
theorem packResponse_head (r : Response cfg) {start len : Nat} (h : cfg.digw + cfg.digw + cfg.digw ≤ start) :
    (packResponse r).extractLsb' start len =
      (r.status ++ r.value).extractLsb' (start - (cfg.digw + cfg.digw + cfg.digw)) len :=
  BitVec.extractLsb'_append_eq_of_le h

end

/-- The weights of the digit word are powers of two, not of the radix (30_encoding.md R62). -/
theorem digitWord_toNat (r : Response Config.mrd) :
    (digitWord r).toNat = r.a.toNat * 2 ^ 22 + r.b.toNat * 2 ^ 11 + r.c.toNat := by
  rw [digitWord, BitVec.toNat_append, BitVec.toNat_append, ← Nat.shiftLeft_add_eq_or_of_lt r.b.isLt,
    ← Nat.shiftLeft_add_eq_or_of_lt r.c.isLt, Nat.shiftLeft_eq, Nat.shiftLeft_eq]
  ring

/-- Settles O20: the fields are the parts of the concatenation, and `a * 2^22 + b * 2^11` exceeds
`a * 1628^2 + b * 1628` unless both digits are 0. -/
theorem responseWordHasTheFiveFields : Obligations.ResponseWordHasTheFiveFields := by
  refine ⟨fun _ _ => rfl, fun r => ⟨?_, ?_, ?_, ?_, ?_, packResponse_digitWord r, digitWord_toNat r, ?_⟩⟩
  · exact (packResponse_head r (by decide)).trans BitVec.extractLsb'_append_eq_left
  · exact (packResponse_head r (by decide)).trans BitVec.extractLsb'_append_eq_right
  · exact (packResponse_digit r (by decide)).trans
      ((BitVec.extractLsb'_append_eq_of_le (by decide)).trans BitVec.extractLsb'_append_eq_left)
  · exact (packResponse_digit r (by decide)).trans
      ((BitVec.extractLsb'_append_eq_of_le (by decide)).trans BitVec.extractLsb'_append_eq_right)
  · exact (packResponse_digit r (by decide)).trans BitVec.extractLsb'_append_eq_right
  · rw [digitWord_toNat]
    omega

section
variable {cfg : Config}

/-- The control signals stand above the `VALW` bits of the value. -/
theorem packInput_control (i : Input cfg) :
    (packInput i).getLsbD (cfg.valw + 2) = i.rst ∧ (packInput i).getLsbD (cfg.valw + 1) = i.reqValid ∧
      (packInput i).getLsbD cfg.valw = i.rspReady := by
  have hbit (k : Nat) : (packInput i).getLsbD (cfg.valw + k) =
      (BitVec.ofBool i.rst ++ BitVec.ofBool i.reqValid ++ BitVec.ofBool i.rspReady).getLsbD k := by
    rw [packInput, BitVec.getLsbD_append, if_neg (by omega), Nat.add_sub_cancel_left]
  obtain ⟨hrst, hvalid, hready⟩ := controlBits i.rst i.reqValid i.rspReady
  exact ⟨(hbit 2).trans hrst, (hbit 1).trans hvalid, (hbit 0).trans hready⟩

theorem packInput_value (i : Input cfg) : (packInput i).extractLsb' 0 cfg.valw = i.reqValue :=
  BitVec.extractLsb'_append_eq_right

theorem unpackInput_packInput (i : Input cfg) : unpackInput (packInput i) = i := by
  obtain ⟨hrst, hvalid, hready⟩ := packInput_control i
  have hvalue : (packInput i).setWidth cfg.valw = i.reqValue := BitVec.setWidth_append_eq_right
  rw [unpackInput, hrst, hvalid, hready, hvalue]

/-- Three bits are the concatenation of their bits. -/
theorem ofBool_append_bits : ∀ u : BitVec 3,
    BitVec.ofBool (u.getLsbD 2) ++ BitVec.ofBool (u.getLsbD 1) ++ BitVec.ofBool (u.getLsbD 0) = u := by
  decide

theorem packInput_unpackInput (w : BitVec (3 + cfg.valw)) : packInput (unpackInput w) = w := by
  have hhead := ofBool_append_bits (w.extractLsb' cfg.valw 3)
  have hbit (k : Nat) (hk : k < 3) : (w.extractLsb' cfg.valw 3).getLsbD k = w.getLsbD (cfg.valw + k) := by
    simp [hk]
  rw [hbit 2 (by decide), hbit 1 (by decide), hbit 0 (by decide)] at hhead
  calc packInput (unpackInput w)
      = w.extractLsb' cfg.valw 3 ++ w.setWidth cfg.valw := congrArg (· ++ w.setWidth cfg.valw) hhead
    _ = w.extractLsb' cfg.valw 3 ++ w.extractLsb' 0 cfg.valw := by
        rw [BitVec.setWidth_eq_extractLsb' (Nat.le_add_left _ _)]
    _ = w := BitVec.extractLsb'_append_extractLsb'

end

/-- Settles O21: the word is the concatenation of the four signals, and its bits are read where they were put. -/
theorem inputWordCarriesEverySignal : Obligations.InputWordCarriesEverySignal := by
  refine ⟨fun _ => unpackInput_packInput, fun _ => packInput_unpackInput, fun i => ?_⟩
  obtain ⟨hrst, hvalid, hready⟩ := packInput_control i
  exact ⟨hrst, hvalid, hready, packInput_value i⟩

end Sys2Proof.Machine

namespace Sys2Proof.Machine

/-! ### The digits of a number (40_decompose.md R80 to R93) -/

/-- The top digit is the second quotient of the sequential form (40_decompose.md R84). -/
theorem closedA_eq_div_div (radix v : Nat) : closedA radix v = v / radix / radix := (div_div_radix radix v).symm

/-- Settles O24: dividing twice by the radix is dividing by its square, and the two remainders are the same terms. -/
theorem sequentialFormIsTheClosedForm : Obligations.SequentialFormIsTheClosedForm := by
  intro v radix _
  refine ⟨div_div_radix radix v, ?_⟩
  rw [closedA_eq_div_div]
  rfl

/-- The top digit of one number is legal exactly when three digits reach that number. -/
theorem closedA_lt_radix_iff {radix : Nat} (hradix : 1 ≤ radix) (v : Nat) :
    closedA radix v < radix ↔ v < radix ^ 3 := by
  rw [closedA, Nat.div_lt_iff_lt_mul (pow_pos hradix 2), ← pow_succ']

/-- Settles O23: the largest Value alone decides it, by `closedA_lt_radix_iff`. -/
theorem topDigitIsLegalExactlyUnderCoverage : Obligations.TopDigitIsLegalExactlyUnderCoverage := by
  intro radix hradix
  constructor
  · intro hall
    exact (closedA_lt_radix_iff hradix 4294967295).1 (hall 4294967295 le_rfl)
  · intro hcover v hv
    exact (closedA_lt_radix_iff hradix v).2 (by omega)

/-- Existence: the closed forms have their operand as weighted sum (40_decompose.md R86). -/
theorem weightedSum_closed (radix v : Nat) :
    weightedSum radix (closedA radix v) (closedB radix v) (closedC radix v) = v := by
  rw [closedA_eq_div_div]
  calc v / radix / radix * radix ^ 2 + v / radix % radix * radix + v % radix
      = radix * (radix * (v / radix / radix) + v / radix % radix) + v % radix := by ring
    _ = v := by rw [Nat.div_add_mod, Nat.div_add_mod]

/-- Uniqueness: a weighted sum determines its digits when the lower two are legal (40_decompose.md R88). -/
theorem closed_weightedSum {radix b c : Nat} (a : Nat) (hb : b < radix) (hc : c < radix) :
    closedA radix (weightedSum radix a b c) = a ∧ closedB radix (weightedSum radix a b c) = b ∧
      closedC radix (weightedSum radix a b c) = c := by
  have hpos : 0 < radix := by omega
  have hsum : weightedSum radix a b c = c + radix * (b + radix * a) := by unfold weightedSum; ring
  have hquot : weightedSum radix a b c / radix = b + radix * a := by
    rw [hsum, Nat.add_mul_div_left _ _ hpos, Nat.div_eq_of_lt hc, zero_add]
  refine ⟨?_, ?_, ?_⟩
  · rw [closedA_eq_div_div, hquot, Nat.add_mul_div_left _ _ hpos, Nat.div_eq_of_lt hb, zero_add]
  · rw [closedB, hquot, Nat.add_mul_mod_self_left, Nat.mod_eq_of_lt hb]
  · rw [closedC, hsum, Nat.add_mul_mod_self_left, Nat.mod_eq_of_lt hc]

/-- One place of the dictionary order: quotient first, then remainder. -/
theorem div_mod_lt_of_lt (radix : Nat) {x y : Nat} (h : x < y) :
    x / radix < y / radix ∨ x / radix = y / radix ∧ x % radix < y % radix := by
  obtain hlt | heq := (Nat.div_le_div_right h.le : x / radix ≤ y / radix).lt_or_eq
  · exact .inl hlt
  · have hx := Nat.div_add_mod x radix
    have hy := Nat.div_add_mod y radix
    rw [heq] at hx
    exact .inr ⟨heq, by omega⟩

/-- The dictionary order on tuples, most significant digit first (40_decompose.md R92). -/
def TupleBefore (a b c a' b' c' : Nat) : Prop := a < a' ∨ a = a' ∧ (b < b' ∨ b = b' ∧ c < c')

/-- The closed forms are strictly increasing: the order of the quotients and remainders, one place after the other. -/
theorem closed_tupleBefore (radix : Nat) {v w : Nat} (h : v < w) :
    TupleBefore (closedA radix v) (closedB radix v) (closedC radix v) (closedA radix w) (closedB radix w)
      (closedC radix w) := by
  simp only [TupleBefore, closedA_eq_div_div]
  obtain hlt | ⟨heq, hc⟩ := div_mod_lt_of_lt radix h
  · exact (div_mod_lt_of_lt radix hlt).imp id fun ⟨ha, hb⟩ => ⟨ha, .inl hb⟩
  · exact .inr ⟨by rw [heq], .inr ⟨by rw [closedB, closedB, heq], hc⟩⟩

/-! ### The digits of a response, in every legal configuration -/

section
variable {cfg : Config}

/-- The digits of the response to a legal operand lose no bit (40_decompose.md R80, R85). -/
theorem respond_digits {v : BitVec cfg.valw} (h : v.toNat ≤ valueMax) :
    (respond v).a.toNat = closedA cfg.radix v.toNat ∧ (respond v).b.toNat = closedB cfg.radix v.toNat ∧
      (respond v).c.toNat = closedC cfg.radix v.toNat := by
  rw [respond_legal v h]
  exact ⟨toNat_closedA _ h, toNat_closedB _, toNat_closedC _⟩

theorem respond_digits_lt {v : BitVec cfg.valw} (h : v.toNat ≤ valueMax) :
    (respond v).a.toNat < cfg.radix ∧ (respond v).b.toNat < cfg.radix ∧ (respond v).c.toNat < cfg.radix := by
  obtain ⟨ha, hb, hc⟩ := respond_digits h
  exact ⟨ha ▸ closedA_lt_radix _ h, hb ▸ closedB_lt_radix _, hc ▸ closedC_lt_radix _⟩

theorem weightedSum_respond {v : BitVec cfg.valw} (h : v.toNat ≤ valueMax) :
    weightedSum cfg.radix (respond v).a.toNat (respond v).b.toNat (respond v).c.toNat = v.toNat := by
  obtain ⟨ha, hb, hc⟩ := respond_digits h
  rw [ha, hb, hc, weightedSum_closed]

/-- A triple with legal lower digits and the operand as its sum is the one delivered. -/
theorem respond_eq_of_weightedSum {v : BitVec cfg.valw} {a b c : Nat} (h : v.toNat ≤ valueMax) (hb : b < cfg.radix)
    (hc : c < cfg.radix) (hsum : weightedSum cfg.radix a b c = v.toNat) :
    (respond v).a.toNat = a ∧ (respond v).b.toNat = b ∧ (respond v).c.toNat = c := by
  obtain ⟨hA, hB, hC⟩ := respond_digits h
  rw [hA, hB, hC, ← hsum]
  exact closed_weightedSum a hb hc

/-- A legal digit is not the poison code (30_encoding.md R66). -/
theorem ne_poison_of_lt {d : BitVec cfg.digw} (h : d.toNat < cfg.radix) : d ≠ cfg.poison := by
  rintro rfl
  exact absurd h (Nat.not_lt.2 (poisonIsNoDigit.1 cfg).1)

end

/-- Recompose accepts legal digits and gives their exact sum (42_reference_functions.md R120). -/
theorem recompose_of_lt {radix a b c : Nat} (ha : a < radix) (hb : b < radix) (hc : c < radix) :
    recompose radix a b c = .ok (weightedSum radix a b c) := by
  rw [recompose, if_neg (by omega), if_neg (by omega), if_neg (by omega)]

/-- Settles O25, by `weightedSum_closed`: the digits lose no bit, and the closed forms sum to the operand. -/
theorem digitsRecomposeToTheOperand : Obligations.DigitsRecomposeToTheOperand := by
  intro cfg v hv
  exact ⟨by rw [respond_legal v hv], weightedSum_respond hv⟩

/-- Settles O27: existence is `weightedSum_respond`, uniqueness `respond_eq_of_weightedSum`. -/
theorem theTripleIsUnique : Obligations.TheTripleIsUnique := by
  intro cfg v hv a b c
  constructor
  · rintro ⟨hb, hc, hsum⟩
    obtain ⟨hA, hB, hC⟩ := respond_eq_of_weightedSum hv hb hc hsum
    exact ⟨hA.symm, hB.symm, hC.symm⟩
  · rintro ⟨rfl, rfl, rfl⟩
    obtain ⟨-, hb, hc⟩ := respond_digits_lt hv
    exact ⟨hb, hc, weightedSum_respond hv⟩

/-- Settles O28: the digits are legal, so that Recompose accepts them, and their sum is the operand. -/
theorem recomposeOfDecompIsTheOperand : Obligations.RecomposeOfDecompIsTheOperand := by
  intro cfg v hv
  obtain ⟨ha, hb, hc⟩ := respond_digits_lt hv
  rw [recompose_of_lt ha hb hc, weightedSum_respond hv]

/-- Settles O30: the tuples are ordered as the closed forms are, and a tuple is not before itself. -/
theorem decompPreservesOrder : Obligations.DecompPreservesOrder := by
  intro cfg v w hlt hw
  have horder := closed_tupleBefore cfg.radix hlt
  obtain ⟨hav, hbv, hcv⟩ := respond_digits (hlt.le.trans hw)
  obtain ⟨haw, hbw, hcw⟩ := respond_digits hw
  rw [← hav, ← hbv, ← hcv, ← haw, ← hbw, ← hcw] at horder
  simp only [TupleBefore, BitVec.toNat_inj] at horder
  refine ⟨horder, fun heq => ?_⟩
  rw [Prod.mk.injEq, Prod.mk.injEq] at heq
  simp [heq] at horder

/-! ### The tuples of this hardware, radix 1628 -/

theorem respond_digits_mrd (v : Value) :
    (respond v).a.toNat = v.toNat / 2650384 ∧ (respond v).b.toNat = v.toNat / 1628 % 1628 ∧
      (respond v).c.toNat = v.toNat % 1628 :=
  respond_digits (value_le v)

/-- The Digit Tuple invariant with the weights of this hardware (40_decompose.md R86). -/
theorem sum_respond_mrd (v : Value) :
    (respond v).a.toNat * 2650384 + (respond v).b.toNat * 1628 + (respond v).c.toNat = v.toNat :=
  weightedSum_respond (value_le v)

/-- Uniqueness with the weights of this hardware (40_decompose.md R88). -/
theorem respond_eq_of_sum_mrd {v : Value} {a b c : Nat} (hb : b < 1628) (hc : c < 1628)
    (hsum : a * 2650384 + b * 1628 + c = v.toNat) :
    (respond v).a.toNat = a ∧ (respond v).b.toNat = b ∧ (respond v).c.toNat = c :=
  respond_eq_of_weightedSum (value_le v) hb hc hsum

/-- Settles O26: the digits are below the radix, where poison is not; on this hardware the bounds are those of the
closed forms at the largest Value. -/
theorem everyDigitIsInRange : Obligations.EveryDigitIsInRange := by
  constructor
  · intro cfg v hv
    obtain ⟨ha, hb, hc⟩ := respond_digits_lt hv
    exact ⟨ha, hb, hc, ne_poison_of_lt ha, ne_poison_of_lt hb, ne_poison_of_lt hc⟩
  · intro v
    obtain ⟨ha, hb, hc⟩ := respond_digits_mrd v
    have hv : v.toNat ≤ 4294967295 := value_le v
    omega

theorem inImage_mrd_iff (a b c : Nat) : inImage 1628 a b c = true ↔ a * 2650384 + b * 1628 + c ≤ 4294967295 :=
  decide_eq_true_iff

/-- What the caller of Recompose does with legal digits: the sum as a Value inside the image, the sum named outside it
(42_reference_functions.md R121). -/
theorem recomposeValue_of_lt {a b c : Nat} (ha : a < 1628) (hb : b < 1628) (hc : c < 1628) :
    recomposeValue a b c =
      if inImage 1628 a b c then .ok (BitVec.ofNat Config.mrd.valw (a * 2650384 + b * 1628 + c))
      else .error (.valueOutOfRange ((a * 2650384 + b * 1628 + c : Nat) : Int)) := by
  rw [recomposeValue, recompose_of_lt ha hb hc]
  rfl

/-- The largest Value is the tuple (1620, 826, 487), and for legal digits the order of the sums is the dictionary
order. -/
theorem inImage_iff_le_largest {a b c : Nat} (hb : b < 1628) (hc : c < 1628) :
    inImage 1628 a b c = true ↔ a < 1620 ∨ a = 1620 ∧ (b < 826 ∨ b = 826 ∧ c ≤ 487) := by
  rw [inImage_mrd_iff]
  omega

/-- A tuple that some Value's response has is in the image. -/
theorem inImage_respond (v : Value) :
    inImage 1628 (respond v).a.toNat (respond v).b.toNat (respond v).c.toNat = true := by
  rw [inImage_mrd_iff, sum_respond_mrd]
  exact value_le v

/-- Settles O29: inside the image the sum fits a Value, whose triple is unique; outside it the sum exceeds every
Value's. -/
theorem imageIsWhereTheRoundTripHolds : Obligations.ImageIsWhereTheRoundTripHolds := by
  intro a b c ha hb hc
  refine ⟨fun himage => ?_, fun hout => ⟨?_, ?_⟩, inImage_iff_le_largest hb hc⟩
  · refine ⟨_, (recomposeValue_of_lt ha hb hc).trans (if_pos himage), respond_eq_of_sum_mrd hb hc ?_⟩
    have hle := (inImage_mrd_iff a b c).1 himage
    rw [BitVec.toNat_ofNat]
    exact (Nat.mod_eq_of_lt (Nat.lt_succ_of_le hle)).symm
  · rw [recomposeValue_of_lt ha hb hc, hout]
    rfl
  · rintro ⟨v, rfl, rfl, rfl⟩
    simp [inImage_respond v] at hout

/-- Settles O31: in each case the incremented tuple has legal lower digits and the sum `v + 1`, so by uniqueness it is
the tuple of `w`. -/
theorem nextValueIncrementsTheTuple : Obligations.NextValueIncrementsTheTuple := by
  intro v w hnext
  have hsum := sum_respond_mrd v
  obtain ⟨-, hb, -⟩ : _ ∧ (respond v).b.toNat < 1628 ∧ _ := respond_digits_lt (value_le v)
  refine ⟨fun hc => ?_, fun hc hb' => ?_, fun hc hb' => ?_⟩
  · obtain ⟨hA, hB, hC⟩ := respond_eq_of_sum_mrd (v := w) (a := (respond v).a.toNat)
      (c := (respond v).c.toNat + 1) hb (by omega) (by omega)
    exact ⟨BitVec.eq_of_toNat_eq hA, BitVec.eq_of_toNat_eq hB, hC⟩
  · obtain ⟨hA, hB, hC⟩ := respond_eq_of_sum_mrd (v := w) (a := (respond v).a.toNat)
      (b := (respond v).b.toNat + 1) (c := 0) (by omega) (by decide)
      (by rw [hnext, ← hsum, hc]; ring)
    exact ⟨BitVec.eq_of_toNat_eq hA, hB, hC⟩
  · exact respond_eq_of_sum_mrd (by decide) (by decide) (by rw [hnext, ← hsum, hc, hb']; ring)

/-! ### The operation and the sequencer (41_sequencer.md R114) -/

section
variable {cfg : Config}

/-- What a legal DECOMP leaves in the registers, as numbers (40_decompose.md R80, 41_sequencer.md R112). -/
theorem operate_legal_fields (r : Regs cfg) {v : BitVec cfg.valw} (h : v.toNat ≤ valueMax) :
    (r.operate v).ST = 0 ∧ (r.operate v).V = v ∧ (r.operate v).DA.toNat = v.toNat / cfg.radix ^ 2 ∧
      (r.operate v).DB.toNat = v.toNat / cfg.radix % cfg.radix ∧ (r.operate v).DC.toNat = v.toNat % cfg.radix ∧
      (r.operate v).T.toNat = v.toNat / cfg.radix ^ 2 := by
  rw [operate_legal r v h]
  exact ⟨rfl, rfl, toNat_closedA _ h, toNat_closedB _, toNat_closedC _, toNat_closedA_valw v⟩

theorem digitOf_quotientOf (v : BitVec cfg.valw) :
    digitOf (quotientOf v) = BitVec.ofNat cfg.digw (closedB cfg.radix v.toNat) := by
  rw [digitOf, quotientOf_toNat, closedB]

theorem quotientOf_quotientOf (v : BitVec cfg.valw) :
    quotientOf (quotientOf v) = BitVec.ofNat cfg.valw (closedA cfg.radix v.toNat) := by
  rw [quotientOf, quotientOf_toNat, closedA_eq_div_div]

/-- The move of STEP_A stores the whole second quotient of a legal operand (41_sequencer.md R104). -/
theorem lowDigit_closedA {v : BitVec cfg.valw} (h : v.toNat ≤ valueMax) :
    lowDigit (BitVec.ofNat cfg.valw (closedA cfg.radix v.toNat)) =
      BitVec.ofNat cfg.digw (closedA cfg.radix v.toNat) := by
  have hT := toNat_closedA_valw v
  have fits : closedA cfg.radix v.toNat < 2 ^ cfg.digw := (closedA_lt_radix _ h).trans (radix_lt cfg)
  apply BitVec.eq_of_toNat_eq
  rw [lowDigit_toNat _ (hT.symm ▸ fits), hT, toNat_closedA _ h]

/-- The four micro-operations on a legal operand compute what the operation gives in closed form: the sequential form is
the closed form (40_decompose.md R84). -/
theorem microOperations_eq_operate (r : Regs cfg) (i : Input cfg) (h : i.reqValue.toNat ≤ valueMax) :
    (r.accept i).stepC.stepB.stepA = r.operate i.reqValue := by
  rw [accept_legal r i h, operate_legal r _ h]
  simp only [Regs.stepC, Regs.stepB, Regs.stepA, digitOf_quotientOf, quotientOf_quotientOf, lowDigit_closedA h]
  rfl

/-- Three edges without a reset after the accept of a legal operand complete the operation, whatever else is presented
(41_sequencer.md R114). -/
theorem clocks_of_accept (r : Regs cfg) {i i1 i2 i3 : Input cfg} (h : i.reqValue.toNat ≤ valueMax)
    (h1 : i1.rst = false) (h2 : i2.rst = false) (h3 : i3.rst = false) :
    (r.accept i).clocks [i1, i2, i3] = some (r.operate i.reqValue) := by
  have hPH : (r.accept i).PH = Phase.stepC.code := by rw [accept_legal r i h]
  rw [← microOperations_eq_operate r i h]
  simp [Regs.clocks, clock_eq, h1, h2, h3, hPH, Phase.code]

end

/-- A step with scheduled input signals is the clock edge with those signals. -/
theorem step_of_signals {s : State} {i : Input Config.mrd} {rest : List Stimulus} {r : Regs Config.mrd}
    (hs : s.sched = .signals i :: rest) (h : s.regs.clock i = some r) : step s = .next ⟨r, rest, s.tick + 1⟩ := by
  have hin : s.input = i := by simp [State.input, hs]
  have hnext : s.nextSched = rest := by simp [State.nextSched, hs]
  rw [step_of_clock (by simp [hs]) (hin.symm ▸ h), State.advanceFrom, hnext]
  rfl

/-- A run through compute phases with scheduled inputs is the clock edges with those inputs; it accepts and delivers
nothing (41_sequencer.md R110, R115). -/
theorem run_of_signals_compute (is : List (Input Config.mrd)) {s : State} {rest : List Stimulus} {r : Regs Config.mrd}
    (hs : s.sched = is.map .signals ++ rest) (hclocks : s.regs.clocks is = some r) (hrst : ∀ i ∈ is, i.rst = false)
    (hlo : 1 ≤ s.regs.PH.toNat) (hhi : s.regs.PH.toNat + is.length ≤ 4) :
    Host.Core.run Sys2Proof.core is.length s = .next ⟨r, rest, s.tick + is.length⟩ ∧ accepts is.length s = [] ∧
      delivers is.length s = [] := by
  induction is generalizing s with
  | nil =>
    obtain rfl : s.regs = r := by simpa [Regs.clocks] using hclocks
    obtain rfl : s.sched = rest := hs
    exact ⟨rfl, rfl, rfl⟩
  | cons i is ih =>
    rw [List.map_cons, List.cons_append] at hs
    rw [List.length_cons] at hhi
    have hidle : s.regs.PH ≠ 0 := fun hp => by simp [hp] at hlo
    have hdone : s.regs.PH ≠ 4 := fun hp => by simp [hp] at hhi
    obtain ⟨u, hclock, hPH, -⟩ := clock_of_compute (hrst i List.mem_cons_self) hlo (by omega)
    have hstep := step_of_signals hs hclock
    have hclocks : u.clocks is = some r := by simpa only [Regs.clocks, hclock] using hclocks
    obtain ⟨hrun, ha, hd⟩ := ih (s := ⟨u, is.map .signals ++ rest, s.tick + 1⟩) rfl hclocks
      (fun j hj => hrst j (List.mem_cons_of_mem i hj)) (by dsimp only; omega) (by dsimp only; omega)
    rw [List.length_cons, run_succ _ hstep, accepts_succ _ hstep, delivers_succ _ hstep, accepted_of_busy hidle,
      delivered_of_not_done hdone, hrun, ha, hd, Nat.add_assoc, Nat.add_comm 1]
    exact ⟨rfl, rfl, rfl⟩

/-- Settles O12: in phase IDLE a DECOMP is `Regs.operate`, whose fields as numbers are those of `operate_legal_fields`,
and an operand out of range raises the exception. -/
theorem decompAnswersWithTheDigits : Obligations.DecompAnswersWithTheDigits := by
  constructor
  · intro v s hp
    obtain ⟨hST, hV, hA, hB, hC, hT⟩ := operate_legal_fields s.regs (value_le v)
    have hPH := operate_PH s.regs v
    exact ⟨_, exec_decomp_idle v s hp, hST, hA, hB, hC, hV, hT, hPH,
      visible_of_rspValid ((rspValid_iff _).2 hPH), rfl, rfl⟩
  · intro cfg r v
    constructor
    · intro hv
      rw [operate_illegal r v hv]
      rfl
    · intro hv
      obtain ⟨hST, hV, hA, hB, hC, -⟩ := operate_legal_fields r hv
      exact ⟨hST, hV, hA, hB, hC⟩

/-- Settles O47: the first step is the accept, the other three are the edges of `clocks_of_accept`, run by the machine
as `run_of_signals_compute` says. -/
theorem decompIsFourStepsOfTheSequencer : Obligations.DecompIsFourStepsOfTheSequencer := by
  intro s i i1 i2 i3 rest hp hs hrst hvalid h1 h2 h3
  have hin : s.input = i := by simp [State.input, hs]
  have hacc : s.accepted = some i.reqValue := accepted_eq_some_iff.2 (by simp [hp, hin, hrst, hvalid])
  have hdel : s.delivered = none := delivered_of_not_done (by simp [hp, Phase.code])
  have hstep := step_of_signals hs (clock_of_accept hrst hvalid hp)
  have hPH : (s.regs.accept i).PH = 1 := by rw [accept_legal _ i (value_le _)]; rfl
  obtain ⟨hrun, ha, hd⟩ := run_of_signals_compute [i1, i2, i3]
    (s := ⟨s.regs.accept i, .signals i1 :: .signals i2 :: .signals i3 :: rest, s.tick + 1⟩) rfl
    (clocks_of_accept s.regs (value_le _) h1 h2 h3) (by simp [h1, h2, h3]) (by simp [hPH]) (by simp [hPH])
  refine ⟨_, _, exec_decomp_idle _ s hp, (run_succ 3 hstep).trans hrun, rfl, rfl, rfl, ?_, ?_⟩
  · rw [delivers_succ 3 hstep, hdel]
    exact hd
  · rw [accepts_succ 3 hstep, hacc]
    exact congrArg (i.reqValue :: ·) ha

end Sys2Proof.Machine

namespace Sys2Proof.Machine

/-! ### The phase invariant (41_sequencer.md R112) -/

/-- Settles O42, by the eight cases of a clock edge, as `clock_keeps_phaseInvariant` takes them. -/
theorem clockKeepsThePhaseInvariant : Obligations.ClockKeepsThePhaseInvariant :=
  fun _ _ _ _ => clock_keeps_phaseInvariant

/-- Settles O43: a step is a clock edge or the user-level operation, and both keep the invariant. -/
theorem stepKeepsThePhaseInvariant : Obligations.StepKeepsThePhaseInvariant :=
  fun _ _ => step_keeps_phaseInvariant

/-! ### The clock edge, one equation for each row of 41_sequencer.md R110 -/

section
variable {cfg : Config} {r : Regs cfg} {i : Input cfg}

theorem clock_of_rst (hrst : i.rst = true) : r.clock i = some r.reset := by
  rw [clock_eq, if_pos hrst]

theorem clock_of_wait (hrst : i.rst = false) (hvalid : i.reqValid = false) (hp : r.PH = 0) : r.clock i = some r := by
  simp [clock_eq, hrst, hvalid, hp]

theorem clock_of_stepC (hrst : i.rst = false) (hp : r.PH = 1) : r.clock i = some r.stepC := by
  simp [clock_eq, hrst, hp]

theorem clock_of_stepB (hrst : i.rst = false) (hp : r.PH = 2) : r.clock i = some r.stepB := by
  simp [clock_eq, hrst, hp]

theorem clock_of_stepA (hrst : i.rst = false) (hp : r.PH = 3) : r.clock i = some r.stepA := by
  simp [clock_eq, hrst, hp]

theorem clock_of_hold (hrst : i.rst = false) (hready : i.rspReady = false) (hp : r.PH = 4) : r.clock i = some r := by
  simp [clock_eq, hrst, hready, hp]

/-- No edge without a reset leads out of a reserved phase (41_sequencer.md R113). -/
theorem clock_of_reserved (hrst : i.rst = false) (hp : 4 < r.PH.toNat) : r.clock i = none := by
  have hlt := r.PH.isLt
  rw [clock_eq, hrst]
  generalize r.PH.toNat = n at hp hlt
  match n with
  | 5 => rfl
  | 6 => rfl
  | 7 => rfl

/-- ACCEPT on both its paths (41_sequencer.md R101). -/
theorem accept_eq (r : Regs cfg) (i : Input cfg) :
    r.accept i =
      if valueMax < i.reqValue.toNat then r.raiseOutOfRange i.reqValue
      else { r with V := i.reqValue, T := i.reqValue, ST := Status.ok.code, PH := Phase.stepC.code } := by
  split
  · next h => exact accept_illegal r i h
  · next h => exact accept_legal r i (Nat.le_of_not_lt h)

/-- An accept always leaves phase IDLE. -/
theorem accept_PH_ne_idle (r : Regs cfg) (i : Input cfg) : (r.accept i).PH ≠ Phase.idle.code := by
  rw [accept_eq]
  split <;> simp [Phase.code]

/-- An edge never leads into a reserved phase, not even from one (41_sequencer.md R113). -/
theorem clock_phase_le {r' : Regs cfg} (h : r.clock i = some r') : r'.PH.toNat ≤ 4 := by
  obtain ⟨-, rfl⟩ | ⟨-, hp, -, rfl⟩ | ⟨-, -, -, rfl⟩ | ⟨-, -, rfl⟩ | ⟨-, -, rfl⟩ | ⟨-, -, rfl⟩ | ⟨-, hp, -, rfl⟩ |
    ⟨-, -, -, rfl⟩ := clock_cases h
  · simp [Phase.code]
  · simp [hp, Phase.code]
  · exact (phaseInvariant_accept r i).phase
  · simp [Phase.code]
  · simp [Phase.code]
  · simp [Phase.code]
  · simp [hp, Phase.code]
  · simp [Phase.code]

/-- An edge of the operation in flight keeps the status unless it is a reset (10_state.md R25). -/
theorem clock_ST_of_busy {r' : Regs cfg} (h : r.clock i = some r') (hrst : i.rst = false)
    (hp : r.PH ≠ Phase.idle.code) : r'.ST = r.ST := by
  obtain ⟨hr, -⟩ | ⟨-, hidle, -⟩ | ⟨-, hidle, -⟩ | ⟨-, -, rfl⟩ | ⟨-, -, rfl⟩ | ⟨-, -, rfl⟩ | ⟨-, -, -, rfl⟩ |
    ⟨-, -, -, rfl⟩ := clock_cases h
  · simp [hrst] at hr
  · exact absurd hidle hp
  · exact absurd hidle hp
  all_goals rfl

end

/-- Settles O38: the row of each phase and input is an equation for the clock edge, whose result has the next phase. -/
theorem phaseTransitionTable : Obligations.PhaseTransitionTable := by
  refine ⟨fun cfg r i hrst => ⟨_, clock_of_rst hrst, rfl⟩, fun cfg r i hrst => ?_,
    fun v => Nat.not_lt_of_le (value_le v)⟩
  refine ⟨fun hp hvalid => ⟨_, clock_of_wait hrst hvalid hp, hp⟩, fun hp hvalid hv => ?_, fun hp hvalid hv => ?_,
    fun hp => ⟨_, clock_of_stepC hrst hp, rfl⟩, fun hp => ⟨_, clock_of_stepB hrst hp, rfl⟩,
    fun hp => ⟨_, clock_of_stepA hrst hp, rfl⟩, fun hp hready => ⟨_, clock_of_hold hrst hready hp, hp⟩,
    fun hp hready => ⟨_, clock_of_deliver hrst hready hp, rfl⟩⟩
  · exact ⟨_, clock_of_accept hrst hvalid hp, by rw [accept_legal r i hv]; rfl⟩
  · exact ⟨_, clock_of_accept hrst hvalid hp, by rw [accept_illegal r i hv]; rfl⟩

/-- Settles O39: the edge performs the micro-operation selected, and each micro-operation writes the registers of its
row; ACCEPT has a row for each of its paths. -/
theorem registersChangeOnlyWhereTheTableSays : Obligations.RegistersChangeOnlyWhereTheTableSays := by
  intro cfg r r' i h
  unfold Regs.clock at h
  generalize decodeSel (selectWord i r.PH) = op at h
  cases op with
  | accept =>
    cases h
    obtain hv | hv := Nat.lt_or_ge valueMax i.reqValue.toNat
    · have hlt : 4294967295 < i.reqValue.toNat := hv
      simp [accept_illegal r i hv, hlt]
    · have hle : i.reqValue.toNat ≤ 4294967295 := hv
      simp [accept_legal r i hv, hle]
  | decomp | decompIp | reservedPh5 | reservedPh6 | reservedPh7 => cases h
  | reset | wait | stepC | stepB | stepA | hold | deliver =>
    cases h
    simp

/-! ### Runs (41_sequencer.md R100, R112, R113) -/

/-- No step of the machine leads into a reserved phase, the user-level operation among them. -/
theorem step_phase_le {s t : State} (h : step s = .next t) : t.regs.PH.toNat ≤ 4 := by
  obtain ⟨-, -, ⟨v, -, -, -, ht⟩ | hclock⟩ := step_cases h
  · simp [ht, operate_PH]
  · exact clock_phase_le hclock

/-- From a legal phase every run has a last state, by induction on its length. -/
theorem run_of_legal (n : Nat) {s : State} (hp : s.regs.PH.toNat ≤ 4) :
    ∃ t, Host.Core.run Sys2Proof.core n s = .next t ∧ t.regs.PH.toNat ≤ 4 ∧ t.tick = s.tick + n := by
  induction n generalizing s with
  | zero => exact ⟨s, rfl, hp, rfl⟩
  | succ n ih =>
    obtain ⟨u, hstep⟩ := step_legal s hp
    obtain ⟨-, htick, -⟩ := step_cases hstep
    obtain ⟨t, hrun, ht, htime⟩ := ih (step_phase_le hstep)
    exact ⟨t, (run_succ n hstep).trans hrun, ht, by omega⟩

/-- A run that goes on has a first step, and the rest is a run from there. -/
theorem run_succ_cases {n : Nat} {s t : State} (h : Host.Core.run Sys2Proof.core (n + 1) s = .next t) :
    ∃ u, step s = .next u ∧ Host.Core.run Sys2Proof.core n u = .next t := by
  have hstep : Sys2Proof.core.step s = step s := rfl
  cases hs : step s with
  | next u => exact ⟨u, rfl, (run_succ n hs).symm.trans h⟩
  | fault => simp [Host.Core.run, hstep, hs] at h
  | refused => simp [Host.Core.run, hstep, hs] at h

/-- What every step keeps, every run keeps. -/
theorem run_keeps {P : State → Prop} (keep : ∀ s t, P s → step s = .next t → P t) (n : Nat) {s t : State} (hs : P s)
    (h : Host.Core.run Sys2Proof.core n s = .next t) : P t := by
  induction n generalizing s with
  | zero =>
    cases h
    exact hs
  | succ n ih =>
    obtain ⟨u, hstep, hrun⟩ := run_succ_cases h
    exact ih (keep s u hs hstep) hrun

/-- Settles O45: no step from a legal phase stops, and every run keeps what every step keeps. -/
theorem runsNeverStop : Obligations.RunsNeverStop :=
  ⟨fun n _ => run_of_legal n, fun n _ _ =>
    run_keeps (P := fun s => PhaseInvariant s.regs) (fun _ _ => step_keeps_phaseInvariant) n⟩

/-! ### From the accept to the response (41_sequencer.md R114, R115) -/

section
variable {cfg : Config}

/-- A compute phase shows a host nothing. -/
theorem visible_of_compute {r : Regs cfg} (h : r.PH ≠ Phase.idle.code ∧ r.PH ≠ Phase.done.code) :
    r.visible = (false, none) := by
  rw [visible_of_not_rspValid (rspValid_of_ne h.2), reqReady_of_ne h.1]

/-- The edges of a legal operation one by one, up to the registers that `Regs.operate` gives. -/
theorem clock_accept_to_done (r : Regs cfg) {i i1 i2 i3 : Input cfg} (h : i.reqValue.toNat ≤ valueMax)
    (h1 : i1.rst = false) (h2 : i2.rst = false) (h3 : i3.rst = false) :
    (r.accept i).clock i1 = some (r.accept i).stepC ∧
      (r.accept i).stepC.clock i2 = some (r.accept i).stepC.stepB ∧
      (r.accept i).stepC.stepB.clock i3 = some (r.operate i.reqValue) := by
  have hp : (r.accept i).PH = 1 := by
    rw [accept_legal r i h]
    rfl
  refine ⟨clock_of_stepC h1 hp, clock_of_stepB h2 rfl, ?_⟩
  rw [← microOperations_eq_operate r i h]
  exact clock_of_stepA h3 rfl

/-- After an operation its response is visible, on either path (40_decompose.md R80). -/
theorem visible_operate (r : Regs cfg) (v : BitVec cfg.valw) : (r.operate v).visible = (false, some (respond v)) := by
  rw [visible_of_rspValid ((rspValid_iff _).2 (operate_PH r v)), operate_payload]

/-- The error response of an illegal operand (60_exceptions.md R144). -/
theorem respond_illegal {v : BitVec cfg.valw} (h : valueMax < v.toNat) :
    respond v = ⟨1, v, cfg.poison, cfg.poison, cfg.poison⟩ := by
  simp [respond, outOfRange_true h, Status.code]

/-- A response is held by any number of edges on which the host is not ready (41_sequencer.md R107). -/
theorem clocks_of_holds {r : Regs cfg} (hp : r.PH = 4) {holds : List (Input cfg)}
    (h : ∀ i ∈ holds, i.rst = false ∧ i.rspReady = false) : r.clocks holds = some r := by
  induction holds with
  | nil => rfl
  | cons i rest ih =>
    obtain ⟨⟨hrst, hready⟩, hrest⟩ := List.forall_mem_cons.1 h
    simp only [Regs.clocks, clock_of_hold hrst hready hp]
    exact ih hrest

/-- After a deliver the block is ready and no response is visible (41_sequencer.md R105). -/
theorem visible_deliver (r : Regs cfg) : r.deliver.visible = (true, none) := rfl

/-- As many edges as there are phases left up to DONE end there, whatever is presented, and keep operand and status. -/
theorem clocks_of_compute (is : List (Input cfg)) {r : Regs cfg} (hlo : 1 ≤ r.PH.toNat)
    (hlen : r.PH.toNat + is.length = 4) (hrst : ∀ i ∈ is, i.rst = false) :
    ∃ r', r.clocks is = some r' ∧ r'.PH = 4 ∧ r'.V = r.V ∧ r'.ST = r.ST := by
  induction is generalizing r with
  | nil => exact ⟨r, rfl, BitVec.eq_of_toNat_eq hlen, rfl, rfl⟩
  | cons i rest ih =>
    obtain ⟨hi, hrest⟩ := List.forall_mem_cons.1 hrst
    rw [List.length_cons] at hlen
    obtain ⟨u, hclock, hPH, hV⟩ := clock_of_compute hi hlo (by omega)
    have hST := clock_ST_of_busy hclock hi fun hp => by simp [hp, Phase.code] at hlo
    obtain ⟨r', hrun, hdone, hV', hST'⟩ := ih (r := u) (by omega) (by omega) hrest
    exact ⟨r', by simpa only [Regs.clocks, hclock] using hrun, hdone, hV'.trans hV, hST'.trans hST⟩

end

/-- Settles O46: the edges of a legal operation end in `Regs.operate`, an illegal one raises the exception at once, and
the response of either is held and then taken. -/
theorem fourEdgesComputeTheResponse : Obligations.FourEdgesComputeTheResponse := by
  intro cfg r i i1 i2 i3 hp hrst hvalid h1 h2 h3
  have haccept := clock_of_accept hrst hvalid hp
  refine ⟨fun hv => ?_, fun hv => ?_, fun holds j hholds hj hready => ⟨?_, ?_⟩⟩
  · obtain ⟨hC, hB, hA⟩ := clock_accept_to_done r hv h1 h2 h3
    refine ⟨_, _, _, _, haccept, hC, hB, hA, visible_of_compute ?_, visible_of_compute ?_, visible_of_compute ?_, rfl, ?_⟩
    · simp [accept_legal r i hv, Phase.code]
    · simp [Phase.code]
    · simp [Phase.code]
    · rw [visible_operate, respond_legal _ hv]
      rfl
  · refine ⟨_, haccept, ?_, ?_⟩
    · rw [accept_illegal r i hv, operate_illegal r _ hv]
    · rw [accept_illegal r i hv, ← operate_illegal r _ hv, visible_operate, respond_illegal hv]
  · exact clocks_of_holds (operate_PH r _) hholds
  · exact ⟨_, clock_of_deliver hj hready (operate_PH r _), visible_deliver _⟩

/-- Settles O53: the compute phases run on to DONE, and of the edges without a reset only WAIT and HOLD keep the phase. -/
theorem onlyIdleAndDoneWait : Obligations.OnlyIdleAndDoneWait := by
  constructor
  · intro cfg r is hlo hhi hrst hlen
    obtain ⟨r', hrun, hp, hV, hST⟩ := clocks_of_compute is hlo (by omega) hrst
    exact ⟨r', hrun, (rspValid_iff r').2 hp, hV, hST⟩
  · intro cfg r r' i hclock hrst hsame
    obtain ⟨hr, -⟩ | ⟨-, hp, hvalid, hr⟩ | ⟨-, hp, -, rfl⟩ | ⟨-, hp, rfl⟩ | ⟨-, hp, rfl⟩ | ⟨-, hp, rfl⟩ |
      ⟨-, hp, hready, hr⟩ | ⟨-, hp, -, rfl⟩ := clock_cases hclock
    · simp [hrst] at hr
    · exact ⟨hr, .inl ⟨hp, hvalid⟩⟩
    · exact absurd (hsame.trans hp) (accept_PH_ne_idle r i)
    · simp [hp, Phase.code] at hsame
    · simp [hp, Phase.code] at hsame
    · simp [hp, Phase.code] at hsame
    · exact ⟨hr, .inr ⟨hp, hready⟩⟩
    · simp [hp, Phase.code] at hsame

/-! ### The micro-operations one by one (41_sequencer.md R101 to R107, R113) -/

/-- Settles O3: the selection, and `Regs.wait` is the identity. -/
theorem waitWritesNothing : Obligations.WaitWritesNothing :=
  ⟨fun i hrst hvalid => by simp [decodeSel_selectWord, hrst, hvalid], fun _ => rfl⟩

/-- Settles O4: in phase DONE a step is a clock edge, at either level, and without `rsp_ready` that edge is HOLD. -/
theorem holdWritesNothing : Obligations.HoldWritesNothing := by
  refine ⟨fun i hrst hready => by simp [decodeSel_selectWord, hrst, hready], fun _ => rfl, ?_⟩
  intro s t hp hrst hready hstep
  refine ⟨?_, accepted_of_busy (by simp [hp, Phase.code]), delivered_eq_none_iff.2 (by simp [hready])⟩
  obtain ⟨-, -, ⟨-, -, -, hidle, -⟩ | hclock⟩ := step_cases hstep
  · simp [reqReady_iff, hp] at hidle
  · rw [clock_of_hold hrst hready hp] at hclock
    exact (Option.some.inj hclock).symm

/-- Settles O5: `accept_eq` gives the registers on both paths, for the row and for the clock edge that runs it. -/
theorem acceptTakesTheOperandOrRaises : Obligations.AcceptTakesTheOperandOrRaises := by
  refine ⟨fun i hrst hvalid => by simp [decodeSel_selectWord, hrst, hvalid], fun s => ?_, ?_⟩
  · exact congrArg (fun r => Host.Outcome.next (s.withRegs r)) (accept_eq s.regs s.input)
  · intro cfg r i hp hrst hvalid
    exact (clock_of_accept hrst hvalid hp).trans (congrArg some (accept_eq r i))

/-- Settles O6: the remainder fits the digit register and the quotient fits T. -/
theorem stepCFindsTheLeastDigit : Obligations.StepCFindsTheLeastDigit := by
  refine ⟨fun i hrst => by simp [decodeSel_selectWord, hrst], fun s => ?_⟩
  exact ⟨_, rfl, digitOf_toNat s.regs.T, quotientOf_toNat s.regs.T, rfl, rfl, rfl, rfl, rfl, rfl, rfl⟩

/-- Settles O7: as for STEP_C, and the bound on entry is that of the largest Value's first quotient. -/
theorem stepBFindsTheMiddleDigit : Obligations.StepBFindsTheMiddleDigit := by
  refine ⟨fun i hrst => by simp [decodeSel_selectWord, hrst], fun s => ?_, fun r hinv hp => ?_⟩
  · exact ⟨_, rfl, digitOf_toNat s.regs.T, quotientOf_toNat s.regs.T, rfl, rfl, rfl, rfl, rfl, rfl, rfl⟩
  · obtain ⟨hV, -, -, hT⟩ := hinv.stepB hp
    have hle : r.V.toNat ≤ 4294967295 := hV
    have hquot : r.T.toNat = r.V.toNat / 1628 := hT
    omega

/-- Settles O8: STEP_A narrows T to the digit width, and on entry T is the largest Value's second quotient at most, which
has 11 bits. -/
theorem stepAStoresTheTopDigit : Obligations.StepAStoresTheTopDigit := by
  refine ⟨fun i hrst => by simp [decodeSel_selectWord, hrst], fun s => ?_, fun r hinv hp => ?_⟩
  · have hslice : lowDigit s.regs.T = s.regs.T.extractLsb' 0 11 := BitVec.setWidth_eq_extractLsb' (by decide)
    exact ⟨_, rfl, hslice, rfl, rfl, rfl, rfl, rfl, rfl, rfl, rfl⟩
  · obtain ⟨hV, -, -, -, hT⟩ := hinv.stepA hp
    have hle : r.V.toNat ≤ 4294967295 := hV
    have hquot : r.T.toNat = r.V.toNat / 2650384 := hT
    have hbound : r.T.toNat ≤ 1620 := by omega
    refine ⟨hquot, hbound, ?_⟩
    rw [BitVec.extractLsb'_toNat, Nat.shiftRight_zero]
    exact Nat.mod_eq_of_lt (by omega)

/-- Settles O9: the row is `Regs.returnToIdle`, and the response delivered is read from the state before the step. -/
theorem deliverWritesOnlyThePhase : Obligations.DeliverWritesOnlyThePhase := by
  refine ⟨fun i hrst hready => by simp [decodeSel_selectWord, hrst, hready], fun _ => rfl, ?_⟩
  intro s hp hrst hready
  exact ⟨delivered_of_done hp hready hrst, accepted_of_busy (by simp [hp, Phase.code])⟩

/-! ### The step and the instruction selected (41_sequencer.md R100) -/

/-- Without a user-level request the select word selects. -/
theorem selected_of_not_request {s : State} (hs : ∀ v rest, s.sched ≠ .request v :: rest) :
    s.selected = decodeSel (selectWord s.input s.regs.PH) := by
  unfold State.selected
  split
  · next v rest hv => exact absurd hv (hs v rest)
  all_goals rfl

/-- A step from a busy block whose edge has no next state stops, a user-level request's among them. -/
theorem step_of_clock_none {s : State} (hp : s.regs.PH ≠ 0) (h : s.regs.clock s.input = none) :
    step s = .fault (.reservedPhase s.regs.PH) := by
  by_cases hreq : ∃ v rest, s.sched = .request v :: rest
  · obtain ⟨v, rest, hv⟩ := hreq
    obtain ⟨hsel, hin⟩ := selected_request hv
    rw [hin] at h
    rw [step, hsel, exec_decomp_busy v s hp, h]
  · rw [step, selected_of_not_request fun v rest hv => hreq ⟨v, rest, hv⟩, exec_decodeSel, h]

/-- Settles O10: the edge has no next state in a reserved phase unless it is a reset, and every edge and step ends in a
phase up to DONE. -/
theorem reservedPhasesStop : Obligations.ReservedPhasesStop := by
  refine ⟨fun _ => ⟨rfl, rfl, rfl⟩, fun i hrst => by simp [decodeSel_selectWord, hrst], fun s hp => ?_,
    fun _ _ => step_phase_le, fun _ _ _ _ => clock_phase_le⟩
  have hidle : s.regs.PH ≠ 0 := fun h => by simp [h] at hp
  have hdone : s.regs.PH ≠ 4 := fun h => by simp [h] at hp
  refine ⟨reqReady_of_ne hidle, rspValid_of_ne hdone, fun hrst => ?_, fun hrst => ?_⟩
  · exact step_of_clock_none hidle (clock_of_reserved hrst hp)
  · exact ⟨_, step_of_rst hrst, rfl⟩

theorem length_bytesOf (n w : Nat) : (bytesOf n w).length = n := by
  induction n generalizing w with
  | zero => rfl
  | succ n ih => rw [bytesOf, List.length_cons, ih]

/-- Only one byte or four bytes decode. -/
theorem length_of_decodeBytes {bs : List Byte} {i : Instr} (h : decodeBytes bs = .ok i) :
    bs.length = 1 ∨ bs.length = 4 := by
  by_contra hno
  obtain ⟨h1, h4⟩ := not_or.1 hno
  rw [decodeBytes_of_length h1 h4] at h
  cases h

/-- A table word that decodes has the one byte of a select word or the four of a request word, and its number fits its
width. -/
theorem decodeTableWord_eq_some {nbits w : Nat} {i : Instr} (h : decodeTableWord nbits w = some i) :
    w < 2 ^ nbits ∧
      (nbits ≤ 8 ∧ decodeBytes (bytesOf 1 w) = .ok i ∨ 8 < nbits ∧ nbits ≤ 32 ∧ decodeBytes (bytesOf 4 w) = .ok i) := by
  unfold decodeTableWord at h
  split at h
  · cases h
  · next hw =>
    refine ⟨Nat.lt_of_not_le hw, ?_⟩
    split at h
    · next j hdecode =>
      cases h
      obtain h1 | h4 := length_bytesOf _ w ▸ length_of_decodeBytes hdecode
      · exact .inl ⟨by omega, h1 ▸ hdecode⟩
      · exact .inr ⟨by omega, by omega, h4 ▸ hdecode⟩
    · cases h

/-- The low bits of a number's word are the shorter word of that number. -/
theorem extractLsb'_zero_ofNat {m n : Nat} (h : m ≤ n) (w : Nat) :
    (BitVec.ofNat n w).extractLsb' 0 m = BitVec.ofNat m w := by
  rw [← BitVec.setWidth_eq_extractLsb' h, BitVec.setWidth_ofNat_of_le h]

/-- A select word's byte decodes by its six low bits. -/
theorem decodeBytes_bytesOf1 {w : Nat} {i : Instr} (h : decodeBytes (bytesOf 1 w) = .ok i) :
    i = decodeSel (BitVec.ofNat 6 w) := by
  rw [bytesOf, bytesOf, decodeBytes_one, extractLsb'_zero_ofNat (by decide)] at h
  split at h
  · cases h
    rfl
  · cases h

/-- The inputs and the phase that `withFetchWord` sets make up the select word again. -/
theorem selectWord_of_testBit (w : Nat) (v : Value) :
    selectWord (cfg := Config.mrd) ⟨w.testBit 5, w.testBit 4, w.testBit 3, v⟩ (BitVec.ofNat 3 w) = BitVec.ofNat 6 w := by
  have hword := selectWord_of_word (BitVec.ofNat 6 w)
  simp only [BitVec.getLsbD_ofNat, extractLsb'_zero_ofNat (m := 3) (n := 6) (by decide)] at hword
  exact hword

@[simp] theorem withFetchWord_tick (s : State) (nbits w : Nat) : (s.withFetchWord nbits w).tick = s.tick := by
  unfold State.withFetchWord
  split <;> rfl

/-- A select word is put into the phase and the next input signals. -/
theorem selected_withFetchWord_select (s : State) {nbits : Nat} (w : Nat) (h : nbits ≤ 8) :
    (s.withFetchWord nbits w).selected = decodeSel (BitVec.ofNat 6 w) := by
  rw [State.withFetchWord, if_neg (Nat.not_lt_of_le h), ← selectWord_of_testBit w 0]
  rfl

/-- A request word is put into the schedule as a user-level request. -/
theorem selected_withFetchWord_request (s : State) {nbits : Nat} (w : Nat) (h : 8 < nbits) :
    (s.withFetchWord nbits w).selected = .decomp (BitVec.ofNat Config.mrd.valw w) := by
  rw [State.withFetchWord, if_pos h]
  rfl

/-- What a word decodes to is what the machine selects when the word is put where it takes its next instruction. -/
theorem selected_withFetchWord (s : State) {nbits w : Nat} {i : Instr} (h : decodeTableWord nbits w = some i) :
    (s.withFetchWord nbits w).selected = i := by
  obtain ⟨hw, ⟨hbits, hdecode⟩ | ⟨hlo, hhi, hdecode⟩⟩ := decodeTableWord_eq_some h
  · rw [selected_withFetchWord_select s w hbits, decodeBytes_bytesOf1 hdecode]
  · have hfits : w < 4294967296 := hw.trans_le (Nat.pow_le_pow_right (by decide) hhi)
    rw [decodeBytes_bytesOf4 w hfits] at hdecode
    rw [selected_withFetchWord_request s w hlo]
    exact Except.ok.inj hdecode

/-- Settles O19: a step is exec of the instruction selected with the host's side moved on, and `selected_withFetchWord`
says which instruction that is for a word put in place. -/
theorem stepRunsTheDecodedInstruction : Obligations.StepRunsTheDecodedInstruction := by
  refine ⟨fun s nbits w i h => ?_, fun s => ?_, fun _ => selected_of_not_request, fun _ _ _ h => (selected_request h).1⟩
  · have hsel := selected_withFetchWord s h
    refine ⟨hsel, ?_⟩
    rw [step, hsel, ← withFetchWord_tick s nbits w]
    cases exec i (s.withFetchWord nbits w) with
    | next => rfl
    | fault => rfl
    | refused => rfl
  · rw [step]
    cases exec s.selected s with
    | next => rfl
    | fault => rfl
    | refused => rfl

end Sys2Proof.Machine

namespace Sys2Proof.Machine

/-! ### Octets of a Value (42_reference_functions.md R122, R123; 20_memory.md R44) -/

/-- The extracted fields are the base-256 digits of the Value, most significant first (42_reference_functions.md R123). -/
theorem octetsOf_eq (v : Value) :
    octetsOf v = [v.toNat / 16777216, v.toNat / 65536 % 256, v.toNat / 256 % 256, v.toNat % 256] := by
  have hfield (start : Nat) : (v.extractLsb' start 8).toNat = v.toNat / 2 ^ start % 256 := by
    rw [BitVec.extractLsb'_toNat, Nat.shiftRight_eq_div_pow]
  have htop : v.toNat / 2 ^ 24 % 256 = v.toNat / 16777216 :=
    Nat.mod_eq_of_lt (Nat.div_lt_of_lt_mul v.isLt)
  have hlow : v.toNat / 2 ^ 0 % 256 = v.toNat % 256 := by rw [pow_zero, Nat.div_one]
  rw [octetsOf, hfield, hfield, hfield, hfield, htop, hlow]
  rfl

/-- Extraction undoes composition (42_reference_functions.md R122, R123). -/
theorem octetsOf_ipToValue {o0 o1 o2 o3 : Nat} (h0 : o0 ≤ 255) (h1 : o1 ≤ 255) (h2 : o2 ≤ 255) (h3 : o3 ≤ 255) :
    octetsOf (ipToValue o0 o1 o2 o3) = [o0, o1, o2, o3] := by
  rw [octetsOf_eq, ipToValue_toNat o0 o1 o2 o3 h0 h1 h2 h3]
  simp only [List.cons.injEq, and_true]
  omega

/-- Composition undoes extraction: the octets of a Value weigh up to it (42_reference_functions.md R122, R123). -/
theorem ipToValue_octets (v : Value) :
    ipToValue (v.toNat / 16777216) (v.toNat / 65536 % 256) (v.toNat / 256 % 256) (v.toNat % 256) = v := by
  have hv : v.toNat ≤ 4294967295 := value_le v
  apply BitVec.eq_of_toNat_eq
  rw [ipToValue_toNat _ _ _ _ (by omega) (by omega) (by omega) (by omega)]
  omega

/-- The check made on composition is the one made on a literal (`decompIp_wf_iff`). -/
theorem checkedIpToValue_of_le {o0 o1 o2 o3 : Nat} (h : o0 ≤ 255 ∧ o1 ≤ 255 ∧ o2 ≤ 255 ∧ o3 ≤ 255) :
    checkedIpToValue o0 o1 o2 o3 = .ok (ipToValue o0 o1 o2 o3) :=
  if_pos ((decompIp_wf_iff o0 o1 o2 o3).2 h)

theorem checkedIpToValue_of_not_le {o0 o1 o2 o3 : Nat} (h : ¬ (o0 ≤ 255 ∧ o1 ≤ 255 ∧ o2 ≤ 255 ∧ o3 ≤ 255)) :
    checkedIpToValue o0 o1 o2 o3 = .error .invalidAddress :=
  if_neg fun hwf => h ((decompIp_wf_iff o0 o1 o2 o3).1 hwf)

/-- Settles O55: the two round trips `octetsOf_ipToValue` and `ipToValue_octets`, and the two outcomes of the check. -/
theorem octetsAndValuesAgree : Obligations.OctetsAndValuesAgree := by
  refine ⟨fun o0 o1 o2 o3 h0 h1 h2 h3 => ?_, fun v => ⟨ipToValue_octets v, octetsOf_eq v⟩, fun o0 o1 o2 o3 h => ?_⟩
  · exact ⟨checkedIpToValue_of_le ⟨h0, h1, h2, h3⟩, octetsOf_ipToValue h0 h1 h2 h3⟩
  · exact checkedIpToValue_of_not_le (by omega)

/-! ### Recompose (42_reference_functions.md R120, R121) -/

/-- Settles O54: legal digits are accepted by `recompose_of_lt`; otherwise the checks before the first bad component
pass and its own fails. -/
theorem recomposeIsExactAndNamesTheBadDigit : Obligations.RecomposeIsExactAndNamesTheBadDigit := by
  refine fun a b c => ⟨recompose_of_lt, fun ha => if_pos ha, fun ha hb => ?_, fun ha hb hc => ?_⟩
  · rw [recompose, if_neg (Nat.not_le_of_lt ha), if_pos hb]
  · rw [recompose, if_neg (Nat.not_le_of_lt ha), if_neg (Nat.not_le_of_lt hb), if_pos hc]

/-- The digits that a Value's response has lead back to the Value (42_reference_functions.md R121). -/
theorem recomposeValue_respond (v : Value) :
    recomposeValue (respond v).a.toNat (respond v).b.toNat (respond v).c.toNat = .ok v := by
  obtain ⟨ha, hb, hc⟩ := respond_digits_lt (value_le v)
  rw [recomposeValue_of_lt ha hb hc, if_pos (inImage_respond v), sum_respond_mrd, BitVec.ofNat_toNat, BitVec.setWidth_eq]

/-! ### Words of a Vocabulary (42_reference_functions.md R124 to R126) -/

/-- What the load-time check gives about a Vocabulary (42_reference_functions.md R124, R125). -/
theorem loadVocabulary_eq_ok {words vocabulary : List String} (h : loadVocabulary words = .ok vocabulary) :
    vocabulary.length = 1628 ∧ vocabulary.Nodup := by
  unfold loadVocabulary at h
  split at h
  · next hload =>
    cases h
    exact hload
  · cases h

section
variable {vocabulary : List String} {a b c : Nat}

/-- Digits below the size of the Vocabulary have their three words (42_reference_functions.md R124). -/
theorem digitsToWords_of_lt (ha : a < vocabulary.length) (hb : b < vocabulary.length) (hc : c < vocabulary.length) :
    digitsToWords vocabulary a b c = some (vocabulary[a], vocabulary[b], vocabulary[c]) := by
  rw [digitsToWords, List.getElem?_eq_getElem ha, List.getElem?_eq_getElem hb, List.getElem?_eq_getElem hc]

/-- Without repetition the word at a position is found at that position and at no other (42_reference_functions.md
R125). -/
theorem digitOfWord_getElem (hnodup : vocabulary.Nodup) (ha : a < vocabulary.length) :
    digitOfWord vocabulary vocabulary[a] = .ok a := by
  have hidx : vocabulary.idxOf? vocabulary[a] = some a :=
    List.idxOf?_eq_some_iff.2 ⟨ha, rfl, fun j hj heq => hj.ne ((hnodup.getElem_inj_iff).1 heq)⟩
  rw [digitOfWord, hidx]

/-- `words_to_digits` undoes `digits_to_words` (42_reference_functions.md R125). -/
theorem wordsToDigits_getElem (hnodup : vocabulary.Nodup) (ha : a < vocabulary.length) (hb : b < vocabulary.length)
    (hc : c < vocabulary.length) : wordsToDigits vocabulary vocabulary[a] vocabulary[b] vocabulary[c] = .ok (a, b, c) := by
  rw [wordsToDigits, digitOfWord_getElem hnodup ha, digitOfWord_getElem hnodup hb, digitOfWord_getElem hnodup hc]

/-- Words whose digits recompose to a Value give the text of its address (42_reference_functions.md R126). -/
theorem wordsToIp_of_digits {wa wb wc : String} {v : Value} (hdigits : wordsToDigits vocabulary wa wb wc = .ok (a, b, c))
    (hvalue : recomposeValue a b c = .ok v) : wordsToIp vocabulary wa wb wc = .ok (valueToIp v) := by
  simp only [wordsToIp, hdigits, hvalue]

end

/-- Settles O56: the digits are below the size of the Vocabulary, its words are found where they stand, and the digits
recompose to the Value. -/
theorem wordsLeadBackToTheAddress : Obligations.WordsLeadBackToTheAddress := by
  intro words vocabulary v hload
  obtain ⟨hlength, hnodup⟩ := loadVocabulary_eq_ok hload
  obtain ⟨ha, hb, hc⟩ : (respond v).a.toNat < 1628 ∧ (respond v).b.toNat < 1628 ∧ (respond v).c.toNat < 1628 :=
    respond_digits_lt (value_le v)
  rw [← hlength] at ha hb hc
  have hdigits := wordsToDigits_getElem hnodup ha hb hc
  exact ⟨_, _, _, digitsToWords_of_lt ha hb hc, hdigits, wordsToIp_of_digits hdigits (recomposeValue_respond v)⟩

end Sys2Proof.Machine

namespace Sys2Proof.Machine

/-! ### OutOfRange, raised and taken (60_exceptions.md R142 to R145, R160) -/

/-- Settles O35: the payload is the response to V, which is legal at 32 bits; status and digits are read off that
response. -/
theorem noErrorAtThirtyTwoBits : Obligations.NoErrorAtThirtyTwoBits := by
  intro s hinv hvalid
  have hpayload : s.regs.payload = respond s.regs.V := payload_eq_respond hinv ((rspValid_iff s.regs).1 hvalid)
  have hstatus : (respond s.regs.V).status = 0 := by rw [respond_legal _ (value_le _)]
  obtain ⟨ha, hb, hc, -⟩ := everyDigitIsInRange.2 s.regs.V
  rw [← hpayload] at hstatus ha hb hc
  exact ⟨hpayload, hstatus, ha, hb, hc⟩

/-- Settles O32: the edge is an ACCEPT on its error path, its registers are those of the illegal operation, and the
error response is held as any other. -/
theorem outOfRangeIsReportedInBand : Obligations.OutOfRangeIsReportedInBand := by
  intro cfg r i hp hrst hvalid hv
  refine ⟨r.raiseOutOfRange i.reqValue, ?_, rfl, ?_, BitVec.toNat_allOnes, fun j hj hready => ?_⟩
  · rw [clock_of_accept hrst hvalid hp, accept_illegal r i hv]
  · rw [← operate_illegal r _ hv, visible_operate, respond_illegal hv]
  · exact clock_of_hold hj hready rfl

/-- Settles O33: the first edge is a DELIVER, and the ACCEPT after it writes every register it would have written had
there been no error. -/
theorem anErrorLeavesNoTrace : Obligations.AnErrorLeavesNoTrace := by
  intro cfg r take i hp _ htake hready hrst hvalid
  refine ⟨r.deliver, r.deliver.accept i, clock_of_deliver htake hready hp, rfl, clock_of_accept hrst hvalid rfl, ?_⟩
  obtain hv | hv := Nat.lt_or_ge valueMax i.reqValue.toNat
  · rw [accept_illegal r.deliver i hv]
    exact ⟨rfl, fun hle => absurd hv (Nat.not_lt.2 hle), fun _ => ⟨rfl, rfl, rfl, rfl, rfl, rfl⟩⟩
  · rw [accept_legal r.deliver i hv]
    exact ⟨rfl, fun _ => ⟨rfl, rfl, rfl⟩, fun hlt => absurd hlt (Nat.not_lt.2 hv)⟩

/-- The host presents a number that fits the port (60_exceptions.md R160). -/
theorem hostRequest_of_fits {n : Int} (h : 0 ≤ n ∧ n < 2 ^ Config.mrd.valw) :
    hostRequest n = .ok (BitVec.ofInt Config.mrd.valw n) :=
  if_pos h

/-- The host rejects a number that does not fit the port, and names it (60_exceptions.md R160). -/
theorem hostRequest_of_not_fits {n : Int} (h : ¬ (0 ≤ n ∧ n < 2 ^ Config.mrd.valw)) :
    hostRequest n = .error (.valueOutOfRange n) :=
  if_neg h

/-- Settles O36: the port holds exactly the numbers up to 4294967295, and one that fits is not cut down. -/
theorem hostRejectsWhatDoesNotFit : Obligations.HostRejectsWhatDoesNotFit := by
  intro n
  refine ⟨fun hlo hhi => ?_, fun hout => ?_⟩
  · have hlt : n < 2 ^ 32 := by omega
    have hrequest := hostRequest_of_fits ⟨hlo, hlt⟩
    refine ⟨_, ?_, hrequest, by rw [encodeNumber, hrequest]⟩
    rw [BitVec.toNat_ofInt, Int.toNat_of_nonneg (Int.emod_nonneg _ (by decide))]
    exact Int.emod_eq_of_lt hlo hlt
  · have hnot : ¬ (0 ≤ n ∧ n < 2 ^ 32) := by omega
    have hrequest := hostRequest_of_not_fits hnot
    exact ⟨hrequest, by rw [encodeNumber, hrequest]⟩

/-! ### Reset and the two transfers (60_exceptions.md R147) -/

/-- Settles O41: the edge of a reset is `Regs.reset`; an accept needs phase IDLE and a deliver phase DONE, and either
needs `rst = 0`. -/
theorem resetWinsAndTransfersExclude : Obligations.ResetWinsAndTransfersExclude := by
  refine ⟨fun cfg r i hrst => clock_of_rst hrst, fun s => ⟨?_, no_transfer_of_rst⟩⟩
  by_cases hp : s.regs.PH = Phase.idle.code
  · exact .inr (delivered_of_not_done (by simp [hp, Phase.code]))
  · exact .inl (accepted_of_busy hp)

end Sys2Proof.Machine

namespace Sys2Proof.Machine

/-! ### Reset and the runs after it (70_reset_and_hazards.md R165 to R167) -/

/-- What a step delivers and leaves owed was owed before it or answers what it accepts; a reset only clears the debt. -/
theorem step_delivered_sublist {s t : State} (hinv : PhaseInvariant s.regs) (hstep : step s = .next t) :
    List.Sublist (s.delivered.toList ++ t.owed) (s.owed ++ s.accepted.toList.map respond) := by
  obtain ⟨-, -, hsub, -⟩ := everyStepBalancesAcceptsAndResponses s t hinv hstep
  exact hsub

/-- Settles O50, by induction on the number of steps: the first step's law leaves the debt of the rest of the run, whose
own responses the induction hypothesis gives. -/
theorem resetsOnlyDropResponses : Obligations.ResetsOnlyDropResponses := by
  intro n
  induction n with
  | zero => exact fun s _ => List.nil_sublist _
  | succ n ih =>
    intro s hinv
    obtain ⟨u, hstep⟩ := step_legal s hinv.phase
    have hrest := ih u (step_keeps_phaseInvariant hinv hstep)
    have hfirst := step_delivered_sublist hinv hstep
    rw [delivers_succ n hstep, accepts_succ n hstep, List.map_append, ← List.append_assoc]
    calc List.Sublist (s.delivered.toList ++ delivers n u)
          (s.delivered.toList ++ (u.owed ++ (accepts n u).map respond)) := hrest.append_left _
      _ = s.delivered.toList ++ u.owed ++ (accepts n u).map respond := (List.append_assoc ..).symm
      List.Sublist _ (s.owed ++ s.accepted.toList.map respond ++ (accepts n u).map respond) := hfirst.append_right _

/-- In phase IDLE a step that accepts nothing stays there: it is a reset, or the WAIT of an edge with no request. -/
theorem step_of_idle_of_not_accepted {s : State} (hp : s.regs.PH = 0) (hno : s.accepted = none) :
    ∃ t, step s = .next t ∧ t.regs.PH = 0 := by
  cases hrst : s.input.rst
  case true => exact ⟨_, step_of_rst hrst, rfl⟩
  case false =>
    have hvalid : s.input.reqValid = false := by simpa [hrst] using accepted_eq_none_iff.1 hno hp
    refine ⟨_, step_of_clock (fun v rest hs => ?_) (clock_of_wait hrst hvalid hp), hp⟩
    simp [(selected_request hs).2, requestInput] at hvalid

/-- From phase IDLE any run without an accept stays in phase IDLE and delivers nothing. -/
theorem run_of_idle_of_noAccept (n : Nat) {s : State} (hp : s.regs.PH = 0) (hno : NoAccept n s) :
    ∃ t, Host.Core.run Sys2Proof.core n s = .next t ∧ delivers n s = [] ∧ t.regs.PH = 0 := by
  induction n generalizing s with
  | zero => exact ⟨s, rfl, rfl, hp⟩
  | succ n ih =>
    obtain ⟨u, hstep, hu⟩ := step_of_idle_of_not_accepted hp hno.1
    obtain ⟨-, hrest⟩ := (noAccept_succ n hstep).1 hno
    obtain ⟨t, hrun, hdel, ht⟩ := ih hu hrest
    have hfirst : s.delivered = none := delivered_of_not_done (by simp [hp, Phase.code])
    exact ⟨t, (run_succ n hstep).trans hrun, by simp [delivers_succ n hstep, hfirst, hdel], ht⟩

/-- In phase IDLE the block is ready and shows no response (20_memory.md R43). -/
theorem visible_of_idle {cfg : Config} {r : Regs cfg} (hp : r.PH = 0) : r.visible = (true, none) := by
  have hready : r.reqReady = true := (reqReady_iff r).2 hp
  rw [visible_of_not_rspValid (rspValid_of_reqReady hready), hready]

/-- Settles O51: the reset leads to phase IDLE and delivers nothing, and a run without an accept stays there. -/
theorem anAbandonedOperationIsNeverAnswered : Obligations.AnAbandonedOperationIsNeverAnswered := by
  intro s hrst
  refine ⟨_, step_of_rst hrst, (no_transfer_of_rst hrst).2, fun n hno => ?_⟩
  obtain ⟨t, hrun, hdel, ht⟩ := run_of_idle_of_noAccept n rfl hno
  exact ⟨t, hrun, hdel, visible_of_idle ht⟩

/-- Settles O1: selection by `decodeSel_rst`; the row is `Regs.reset`, which leads to phase IDLE. -/
theorem resetWritesPhaseAndStatusOnly : Obligations.ResetWritesPhaseAndStatusOnly := by
  refine ⟨decodeSel_rst, fun s => ⟨s.withRegs s.regs.reset, rfl, rfl, ?_⟩⟩
  have hready : s.regs.reset.reqReady = true := (reqReady_iff _).2 rfl
  exact ⟨hready, rspValid_of_reqReady hready, visible_of_idle rfl⟩

/-- Settles O44: both states are in phase IDLE with status OK, where the invariant asks for nothing more. -/
theorem oneResetEstablishesTheInvariant : Obligations.OneResetEstablishesTheInvariant := by
  refine ⟨phaseInvariant_of_idle rfl (.inl rfl), fun s hrst => ?_⟩
  exact ⟨_, step_of_rst hrst, phaseInvariant_of_idle rfl (.inl rfl), (reqReady_iff _).2 rfl⟩

/-! ### A DECOMP that finds the block busy (70_reset_and_hazards.md R175) -/

/-- A DECOMP in any phase but IDLE does to the registers what the clock edge does with the request presented. -/
theorem exec_decomp_of_clock {v : Value} {s : State} {r : Regs Config.mrd} (hp : s.regs.PH ≠ 0)
    (h : s.regs.clock (requestInput v) = some r) : exec (.decomp v) s = .next (s.withRegs r) := by
  rw [exec_decomp_busy v s hp, h]

/-- Settles O13, phase by phase: the edge with only a request presented is that of the phase, HOLD in phase DONE, and
there is none in a reserved phase. -/
theorem decompOnABusyBlockIsIgnored : Obligations.DecompOnABusyBlockIsIgnored := by
  intro v s
  refine ⟨fun hp => ?stepC, fun hp => ?stepB, fun hp => ?stepA, fun hp => ?done, fun hp => ?reserved⟩
  case stepC => exact exec_decomp_of_clock (by simp [hp]) (clock_of_stepC rfl hp)
  case stepB => exact exec_decomp_of_clock (by simp [hp]) (clock_of_stepB rfl hp)
  case stepA => exact exec_decomp_of_clock (by simp [hp]) (clock_of_stepA rfl hp)
  case done => exact exec_decomp_of_clock (by simp [hp]) (clock_of_hold rfl rfl hp)
  case reserved =>
    have hbusy : s.regs.PH ≠ 0 := fun h0 => by simp [h0] at hp
    rw [exec_decomp_busy v s hbusy, clock_of_reserved rfl hp]

/-! ### The start-up assertion (70_reset_and_hazards.md R172) -/

/-- The start-up assertion as its five conditions. -/
theorem legal_iff (p : Params) :
    p.legal = true ↔
      2 ^ 32 ≤ p.radix ^ 3 ∧ 32 ≤ p.valw ∧ p.radix ≤ 2 ^ p.digw ∧ p.radix ≤ 2 ^ p.digw - 1 ∧ p.ndig = 3 := by
  simp only [Params.legal, Bool.and_eq_true, decide_eq_true_eq, and_assoc]

/-- A configuration is built exactly when it passes the assertion. -/
theorem elaborate_isSome (p : Params) : (elaborate p).isSome = p.legal := by
  unfold elaborate
  split
  · next h => exact h.symm
  · next h => exact (Bool.eq_false_of_not_eq_true h).symm

/-- Building keeps the parameters. -/
theorem toParams_of_elaborate {p : Params} {cfg : Config} (h : elaborate p = some cfg) : cfg.toParams = p := by
  unfold elaborate at h
  split at h <;> cases h
  rfl

/-- Settles O22: `elaborate` tests the five conditions, and a configuration built has a radix of at least 1626. -/
theorem onlyCoveringConfigurationsAreBuilt : Obligations.OnlyCoveringConfigurationsAreBuilt := by
  refine ⟨fun p => ?_, fun p cfg => toParams_of_elaborate, rfl, by decide, fun p hp => ?_⟩
  · rw [elaborate_isSome, legal_iff]
  · refine Option.eq_none_iff_forall_ne_some.2 fun cfg h => ?_
    have hradix := radix_ge cfg
    rw [toParams_of_elaborate h] at hradix
    omega

end Sys2Proof.Machine
